-- ==== Sys2Proof/Word.lean ====
section
/-! DEFINITION. The words of the block: the 32-bit bus word, the 256-bit register word and the 4-bit
register field of a command word (rules R9, R14, R45). -/

namespace Sys2Proof

/-- A 32-bit bus word; also a command word (R35, R44). -/
abbrev Word := BitVec 32

/-- The contents of a field/scalar register or of a point coordinate: an unsigned integer
below 2^256 (R9, R14, R15). -/
abbrev FWord := BitVec 256

/-- A D, A or B field of a command word: four bits that name a register (R45). -/
abbrev RegField := BitVec 4

end Sys2Proof
end

