-- ==== Sys2Proof/Config.lean ====
section
/-! DEFINITION. What an implementation fixes: the curve constants, the sizes, and the open parameters
of rule R8 (each an opaque constant, so that no proof can lean on its value). -/

namespace Sys2Proof.Config

/-- The field prime p = 2^256 - 2^32 - 977 (R6), written out as R6's hexadecimal value. -/
def curveP : Nat := 0xFFFFFFFFFFFFFFFFFFFFFFFFFFFFFFFFFFFFFFFFFFFFFFFFFFFFFFFEFFFFFC2F

/-- The group order n, the spec's named constant CURVE_N (R7). -/
def curveN : Nat := 0xFFFFFFFFFFFFFFFFFFFFFFFFFFFFFFFEBAAEDCE6AF48A03BBFD25E8CD0364141

/-- The curve coefficient a (R6). -/
def curveA : Nat := 0

/-- The curve coefficient b (R6). -/
def curveB : Nat := 7

/-- The x coordinate of the generator G. The block does not hold G (R7, R25): this is the spec's
constant CURVE_G for tests and for host programs. -/
def curveGx : Nat := 0x79BE667EF9DCBBAC55A06295CE870B07029BFCDB2DCE28D959F2815B16F81798

/-- The y coordinate of the generator G (R7). -/
def curveGy : Nat := 0x483ADA7726A3C4655DA4FBFC0E1108A8FD17B448A68554199C47D08FFB10D4B8

/-- NUM_F, the number of field/scalar registers (R8). -/
def numF : Nat := 8

/-- NUM_P, the number of point registers (R8). -/
def numP : Nat := 4

/-- WINDOW_BYTES, the size of the block's window (R8, R28). -/
def windowBytes : Nat := 4096

/-- The two inversion algorithms of R20, PARAM.INV_ALG. -/
inductive InvAlg where
  /-- a^(m-2) mod m -/
  | fermat
  /-- the extended Euclidean algorithm -/
  | eea
deriving DecidableEq, Repr, Inhabited

/-- The four scalar multiplication algorithms of R20, PARAM.SMUL_ALG. -/
inductive SmulAlg where
  /-- double-and-add from the most significant bit -/
  | daMsb
  /-- double-and-add from the least significant bit -/
  | daLsb
  /-- fixed window -/
  | window
  /-- Montgomery ladder -/
  | ladder
deriving DecidableEq, Repr, Inhabited

/-- INV_ALG: OPEN in R8, reported in PARAM. Free value. -/
opaque invAlg : InvAlg

/-- SMUL_ALG: OPEN in R8, reported in PARAM. Free value. -/
opaque smulAlg : SmulAlg

/-- The width in bits of the digits of the fixed-window multiplier, less one. R69 names the method and
no width. Free value. -/
opaque windowDigitBitsPred : Nat

/-- The width in bits of a digit of the fixed-window multiplier: any positive number. -/
def windowDigitBits : Nat := windowDigitBitsPred + 1

/-- MAX_LATENCY less one (R8, R101: a finite bound, at least 1). Free value. -/
opaque maxLatencyPred : Nat

/-- MAX_LATENCY (R8, R101). -/
def maxLatency : Nat := maxLatencyPred + 1

/-- The raw latency draws, one for each accepted command: the k-th acceptance, of this command word, with
F0..F7 and P0..P3 (X, Y, INF) as they stand then (R101: it may differ between operand values). Free values:
`Machine.latency` brings them into the range 1 .. MAX_LATENCY. -/
opaque latencyDraw (k : Nat) (w : Word) (f : Vector FWord 8) (p : Vector (FWord × FWord × Bool) 4) : Nat

/-- BLOCK_BASE divided by 4096 (R28: the base is a multiple of 4096). Free value. -/
opaque blockPage : Nat

/-- BLOCK_BASE, the first address of the block's window in the host's address space (R8, R28). -/
def blockBase : Nat := blockPage * windowBytes

/-- IRQ_ROUTE: the platform input the irq line goes to (R8, R84). OPEN, and outside the block: no rule
of the block reads it. Free value. -/
opaque irqRoute : Nat

end Sys2Proof.Config
end

