-- ==== Sys2Proof/Syntax.lean ====
section
/-! DEFINITION. The ten commands of the block as syntax, one constructor for each row of the opcode table
(R47). -/

namespace Sys2Proof

/-- The modulus select of a field command: M = 0 selects p, M = 1 selects n (R45, R52). -/
inductive Modulus where
  | p
  | n
deriving DecidableEq, Repr, Inhabited

/-- A command. The operand fields are the raw four bits of the command word (R45); whether they lie in
their class (R46) is `Instr.wellFormed`. A field of class Z is no argument. -/
inductive Instr where
  /-- OP 0x00 (R78). -/
  | nop
  /-- OP 0x01: F[d] <- (F[a] + F[b]) mod m (R56). -/
  | fadd (d a b : RegField) (m : Modulus)
  /-- OP 0x02: F[d] <- (F[a] - F[b]) mod m (R57). -/
  | fsub (d a b : RegField) (m : Modulus)
  /-- OP 0x03: F[d] <- (F[a] * F[b]) mod m (R58). -/
  | fmul (d a b : RegField) (m : Modulus)
  /-- OP 0x04: F[d] <- inv_m(F[a]) (R59). -/
  | finv (d a : RegField) (m : Modulus)
  /-- OP 0x05: F[d] <- F[a] mod m (R60). -/
  | fred (d a : RegField) (m : Modulus)
  /-- OP 0x10: P[d] <- P[a] + P[b] (R65). -/
  | padd (d a b : RegField)
  /-- OP 0x11: P[d] <- P[a] + P[a] (R66). -/
  | pdbl (d a : RegField)
  /-- OP 0x12: P[d] <- F[a] * P[b] (R71). -/
  | pmul (d a b : RegField)
  /-- OP 0x13: check P[a] (R67). -/
  | pchk (a : RegField)
deriving DecidableEq, Repr, Inhabited

end Sys2Proof
end

