-- ==== Sys2Proof/Machine/Arith.lean ====
section
/-! DEFINITION. The exact integer arithmetic of the modular multiplier and the modular inverter (R10, R52,
R59). -/

namespace Sys2Proof

/-- The modulus m of a field command (R52). -/
def Modulus.value : Modulus → Nat
  | .p => Config.curveP
  | .n => Config.curveN

end Sys2Proof

namespace Sys2Proof.Machine

/-- t mod m of R10: the r with 0 ≤ r < m and m divides t - r, for an integer t of either sign. -/
def modInt (t : Int) (m : Nat) : Nat := (t % (m : Int)).toNat

/-- Square-and-multiply over the low `i` bits of the exponent, most significant first; `acc` is the power
reached so far. -/
def powLoop (m a e : Nat) : Nat → Nat → Nat
  | 0, acc => acc
  | i + 1, acc =>
    powLoop m a e i (if e.testBit i then acc * acc % m * a % m else acc * acc % m)

/-- a^e mod m, for an exponent below 2^256. -/
def powMod (m a e : Nat) : Nat := powLoop m a e 256 (1 % m)

/-- The inverter by Fermat's little theorem, a^(m-2) mod m (R20, R59). -/
def fermatInv (m a : Nat) : Nat := powMod m a (m - 2)

/-- The extended Euclidean algorithm on the remainders r0, r1 with the cofactors t0, t1 of a. Two rounds
halve r0, so 2 · 256 rounds and one more reach a zero remainder from a modulus below 2^256. -/
def euclidLoop : Nat → Nat → Nat → Int → Int → Int
  | 0, _, _, t0, _ => t0
  | fuel + 1, r0, r1, t0, t1 =>
    if r1 = 0 then t0 else euclidLoop fuel r1 (r0 % r1) t1 (t0 - (r0 / r1 : Nat) * t1)

/-- The inverter by the extended Euclidean algorithm (R20, R59). -/
def euclidInv (m a : Nat) : Nat := modInt (euclidLoop 513 m a 0 1) m

/-- The inverter as an implementation with the given INV_ALG computes it (R20, R59). -/
def inverseBy : Config.InvAlg → Nat → Nat → Nat
  | .fermat, m, a => fermatInv m a
  | .eea, m, a => euclidInv m a

/-- inv_m(a) of R10. Both algorithms of R59 give this number (assumption 5). -/
def invMod (m a : Nat) : Nat := fermatInv m a

end Sys2Proof.Machine
end

