-- ==== Sys2Proof/Machine/State.lean ====
section
/-! DEFINITION. The state of the machine as plain data, the state after reset, and the reasons a step can
stop (R14 to R27, R94). -/

namespace Sys2Proof.Machine

/-- A point register: X, Y and INF (R15). -/
structure PointReg where
  x : FWord
  y : FWord
  inf : Bool
deriving DecidableEq, Repr

/-- The two register files, F0..F7 and P0..P3 (R14, R15). There is no other file (R17). The snapshot of
a command in flight is a second value of this type (R26, R73). -/
structure RegFiles where
  f : Vector FWord 8
  p : Vector PointReg 4
deriving DecidableEq, Repr

/-- The in-flight latch of a command that is not complete (R26, R73). -/
structure Latch where
  /-- the command word -/
  word : Word
  /-- every operand register as it stood at acceptance -/
  snapshot : RegFiles
  /-- the cycles left until completion; the cycle that finds 1 here completes the command -/
  remaining : Nat
deriving DecidableEq, Repr

/-- The width of a host access (R35). -/
inductive AccessWidth where
  | w8
  | w16
  | w32
  | w64
  | burst
deriving DecidableEq, Repr

/-- What a host access does; a write carries its bus data. -/
inductive AccessKind where
  | read
  | write (value : Word)
deriving DecidableEq, Repr

/-- One host access at a byte offset from BLOCK_BASE (R12, R28). -/
structure Access where
  off : Nat
  width : AccessWidth
  kind : AccessKind
deriving DecidableEq, Repr

/-- Whose move it is (R72, R85). The block's two agents are the host and the engine; the platform's reset
input is the third thing that acts on it (R94). -/
inductive Turn where
  /-- the host makes one bus access (R39) -/
  | access (a : Access)
  /-- a cycle in which the host is silent: the engine moves (R75) -/
  | engine
  /-- the platform's reset input (R94) -/
  | hardReset
deriving DecidableEq, Repr

/-- The block's answer on the bus to an access (R35, R36). -/
inductive Response where
  /-- no access has been answered yet -/
  | idle
  /-- a read, with the word read -/
  | data (value : Word)
  /-- a write that reached the window as a whole aligned word -/
  | accepted
  /-- the bus error response of R35 -/
  | busError
deriving DecidableEq, Repr

/-- The state of the machine: the block's own state (R14 to R26), then three fields of the model's own,
`turns`, `response` and `draws`. ID, PARAM and the curve constants are fixed and are no state (R19, R20,
R25); irq is computed (R27). -/
structure State where
  /-- F0..F7 and P0..P3 (R14, R15) -/
  regs : RegFiles
  /-- CTRL.IE (R21) -/
  ie : Bool
  /-- STATUS.BUSY (R22) -/
  busy : Bool
  /-- STATUS.DONE (R22) -/
  done : Bool
  /-- STATUS.ERR (R22) -/
  err : Bool
  /-- STATUS.OVR (R22) -/
  ovr : Bool
  /-- STATUS.Z (R22, R24) -/
  z : Bool
  /-- STATUS.ERRCODE (R22, R79) -/
  errcode : BitVec 4
  /-- the in-flight latch (R26) -/
  latch : Option Latch
  /-- the moves to come, next first; when none is left the engine moves (assumption 1) -/
  turns : List Turn
  /-- the answer to the latest access (assumption 2) -/
  response : Response
  /-- how many latency draws have been taken (assumption 3) -/
  draws : Nat
deriving DecidableEq, Repr

/-- Why a step can stop with a fault. -/
inductive Fault where
  /-- Raised by a host access whose offset lies outside the 4096-byte window of R28, an address that does
  not reach the block. Safe: the run stops where the block would see nothing. -/
  | outsideWindow
deriving DecidableEq, Repr

/-- Why an instruction can be refused. -/
inductive Refusal where
  /-- Raised only by an arm of `exec` whose command has no meaning yet; no arm does so. Safe: the run
  stops. -/
  | notModelled (mnemonic : String)
deriving DecidableEq, Repr

/-- The register files after reset: F = 0, and every point register holds O with X = Y = 0 (R94). -/
def RegFiles.reset : RegFiles where
  f := Vector.replicate 8 0#256
  p := Vector.replicate 4 ⟨0#256, 0#256, true⟩

/-- The machine right after reset (R94). The model's own fields: no move is pending, no access has been
answered and no latency has been drawn (assumptions 1 to 3). -/
def State.reset : State where
  regs := RegFiles.reset
  ie := false
  busy := false
  done := false
  err := false
  ovr := false
  z := false
  errcode := 0#4
  latch := none
  turns := []
  response := .idle
  draws := 0

end Sys2Proof.Machine
end

