-- ==== Sys2Proof/WellFormed.lean ====
section
/-! DEFINITION. When a command as syntax is well formed: every operand field lies in its class (R46). -/

namespace Sys2Proof

/-- Class F: the field names one of F0..F7 (R46). -/
def isFieldReg (i : RegField) : Bool := decide (i.toNat < Config.numF)

/-- Class P: the field names one of P0..P3 (R46). -/
def isPointReg (i : RegField) : Bool := decide (i.toNat < Config.numP)

/-- Every operand field of the command lies in the class that R47 gives it. -/
def Instr.wellFormed : Instr → Bool
  | .nop => true
  | .fadd d a b _ => isFieldReg d && isFieldReg a && isFieldReg b
  | .fsub d a b _ => isFieldReg d && isFieldReg a && isFieldReg b
  | .fmul d a b _ => isFieldReg d && isFieldReg a && isFieldReg b
  | .finv d a _ => isFieldReg d && isFieldReg a
  | .fred d a _ => isFieldReg d && isFieldReg a
  | .padd d a b => isPointReg d && isPointReg a && isPointReg b
  | .pdbl d a => isPointReg d && isPointReg a
  | .pmul d a b => isPointReg d && isFieldReg a && isPointReg b
  | .pchk a => isPointReg a

end Sys2Proof
end

