-- ==== Sys2Proof/Machine/Ops.lean ====
section
/-! DEFINITION. The named operations over the state: reading and writing registers, accepting a command,
completing it with a result or with an error, and the two resets (R12, R16, R73, R75, R81, R94, R95). -/

namespace Sys2Proof.Machine

/-- A point value (R11): O, or a pair of coordinates. -/
inductive Point where
  | infinity
  | affine (x y : Nat)
deriving DecidableEq, Repr

/-- The error codes that a command can complete with (R79). -/
inductive ErrCode where
  | illegal
  | range
  | curve
  | domain
deriving DecidableEq, Repr

/-- The number that STATUS.ERRCODE shows for an error (R79). -/
def ErrCode.code : ErrCode → BitVec 4
  | .illegal => 1#4
  | .range => 2#4
  | .curve => 3#4
  | .domain => 4#4

/-- A field/scalar register, by the field of the command word (R12). A field outside class F names none
and reads 0; no meaning reads one (assumption 6). -/
def RegFiles.getF (r : RegFiles) (i : RegField) : FWord := (r.f[i.toNat]?).getD 0#256

/-- A point register, by the field of the command word (R12). A field outside class P names none and reads
as the reset value; no meaning reads one (assumption 6). -/
def RegFiles.getP (r : RegFiles) (i : RegField) : PointReg := (r.p[i.toNat]?).getD ⟨0#256, 0#256, true⟩

/-- F[i] <- v (R12). A field outside class F names no register and nothing is written. -/
def RegFiles.setF (r : RegFiles) (i : RegField) (v : FWord) : RegFiles :=
  { r with f := r.f.setIfInBounds i.toNat v }

/-- Replace point register i as a whole. A field outside class P names none and nothing is written. -/
def RegFiles.setP (r : RegFiles) (i : RegField) (v : PointReg) : RegFiles :=
  { r with p := r.p.setIfInBounds i.toNat v }

/-- What a point value looks like in a register: O is INF = 1, X = 0, Y = 0 (R12, R16). -/
def Point.toReg : Point → PointReg
  | .infinity => ⟨0#256, 0#256, true⟩
  | .affine x y => ⟨BitVec.ofNat 256 x, BitVec.ofNat 256 y, false⟩

/-- The register a command writes when it completes: at most one (R75). -/
inductive Dest where
  | none
  | field (d : RegField) (v : Nat)
  | point (d : RegField) (R : Point)
deriving DecidableEq, Repr

/-- What a command does when it completes without error: its register write, and the new Z, or none for
"unchanged" (R74). -/
structure Effect where
  write : Dest
  z : Option Bool
deriving DecidableEq, Repr

/-- The outcome of a command: its effect, or the code of its first error (R74). -/
abbrev Result := Except ErrCode Effect

/-- The register write of an effect (R75). -/
def Dest.apply : Dest → RegFiles → RegFiles
  | .none, r => r
  | .field d v, r => r.setF d (BitVec.ofNat 256 v)
  | .point d R, r => r.setP d R.toReg

/-- Completion without error, one indivisible step: the write, Z, BUSY <- 0, DONE <- 1, latch empty
(R75). -/
def State.completeOk (s : State) (e : Effect) : State :=
  { s with
    regs := e.write.apply s.regs, z := e.z.getD s.z, busy := false, done := true, latch := none }

/-- Completion with an error: the block's one exceptional event. No register is written and Z is kept;
BUSY <- 0, DONE <- 1, ERR <- 1, ERRCODE <- code, latch empty (R75, R81). Nothing is saved and control goes
nowhere (R86). -/
def State.completeErr (s : State) (c : ErrCode) : State :=
  { s with
    busy := false, done := true, err := true, errcode := c.code, latch := none }

/-- The engine's completion step (R75). -/
def State.complete (s : State) : Result → State
  | .ok e => s.completeOk e
  | .error c => s.completeErr c

/-- The return from a completion: the host writes 1s to the W1C bits of STATUS (R22, R87). DONE and OVR
clear on a 1; a 1 in ERR clears ERR and ERRCODE; every other bit of the written word is ignored. -/
def State.clearStatus (s : State) (v : Word) : State :=
  { s with
    done := s.done && !v.getLsbD 1
    err := s.err && !v.getLsbD 2
    errcode := if v.getLsbD 2 then 0#4 else s.errcode
    ovr := s.ovr && !v.getLsbD 3 }

/-- The LATENCY of the k-th accepted command, of word w on the registers r: a draw in 1 .. MAX_LATENCY
(R101, assumption 3). -/
def latency (k : Nat) (w : Word) (r : RegFiles) : Nat :=
  1 + Config.latencyDraw k w r.f (r.p.map fun q => (q.x, q.y, q.inf)) % Config.maxLatency

/-- Acceptance of the word w with a given latency (R73): BUSY <- 1; DONE, ERR, ERRCODE <- 0; OVR and Z
kept; the latch takes the word, a snapshot of every register, and the cycles to run. -/
def State.acceptWith (s : State) (w : Word) (cycles : Nat) : State :=
  { s with
    busy := true, done := false, err := false, errcode := 0#4,
    latch := some { word := w, snapshot := s.regs, remaining := cycles } }

/-- Acceptance of the word w (R73), with the next latency draw (R101). -/
def State.accept (s : State) (w : Word) : State :=
  { s.acceptWith w (latency s.draws w s.regs) with draws := s.draws + 1 }

/-- A write dropped because the block is busy (R97). -/
def State.dropWrite (s : State) : State := { s with ovr := true }

/-- Hardware reset (R94), and a soft reset, which has exactly its effect (R95). A command in flight is
abandoned. The moves to come, the latest bus answer and the count of draws are not the block's and stay. -/
def State.resetBlock (s : State) : State :=
  { State.reset with turns := s.turns, response := s.response, draws := s.draws }

/-- The registers a command's body reads: the snapshot in the latch (R73). With no command in flight there
is none, and the live registers stand in for it (assumption 6). -/
def State.operands (s : State) : RegFiles :=
  match s.latch with
  | some l => l.snapshot
  | none => s.regs

/-- Finish the command i with the outcome of its body. A command whose operand fields lie outside their
classes is an illegal word, and completes with ILLEGAL before any operand is read (R49, R80). -/
def finish (i : Instr) (r : Result) (s : State) : Host.Outcome State Fault Refusal :=
  .next (s.complete (if i.wellFormed then r else .error .illegal))

end Sys2Proof.Machine
end

