-- ==== Sys2Proof/Machine/Flags.lean ====
section
/-! DEFINITION. The one condition flag, Z (R24), and the words of STATUS, CTRL, ID and PARAM as the host
reads them, with the irq output (R19 to R23, R27). -/

namespace Sys2Proof.Machine

/-- A field result r for F[d]: Z <- (r = 0) (R24, R54). -/
def fieldEffect (d : RegField) (r : Nat) : Effect := { write := .field d r, z := some (r == 0) }

/-- A point result R for P[d]: Z <- (R = O) (R24). -/
def pointEffect (d : RegField) (R : Point) : Effect :=
  { write := .point d R, z := some (R == .infinity) }

/-- PCHK's outcome: Z <- (the operand is O), no register (R24, R67). -/
def checkEffect (P : Point) : Effect := { write := .none, z := some (P == .infinity) }

/-- NOP's outcome: no register, Z unchanged (R24, R78). -/
def nopEffect : Effect := { write := .none, z := none }

/-- STATUS (R22): BUSY [0], DONE [1], ERR [2], OVR [3], Z [4], reserved [7:5] = 0, ERRCODE [11:8],
reserved [31:12] = 0. -/
def State.statusWord (s : State) : Word :=
  0#20 ++ s.errcode ++ 0#3 ++ BitVec.ofBool s.z ++ BitVec.ofBool s.ovr ++ BitVec.ofBool s.err ++
    BitVec.ofBool s.done ++ BitVec.ofBool s.busy

/-- CTRL (R21): IE [0]; SRST and the reserved bits read 0. -/
def State.ctrlWord (s : State) : Word := 0#31 ++ BitVec.ofBool s.ie

/-- ID (R19). -/
def idWord : Word := 0x256B0100#32

/-- The value of PARAM.INV_ALG (R20). -/
def invAlgBit : Config.InvAlg → BitVec 1
  | .fermat => 0#1
  | .eea => 1#1

/-- The value of PARAM.SMUL_ALG (R20). -/
def smulAlgBits : Config.SmulAlg → BitVec 3
  | .daMsb => 0#3
  | .daLsb => 1#3
  | .window => 2#3
  | .ladder => 3#3

/-- PARAM (R20): INV_ALG [0], SMUL_ALG [3:1], NUM_F [7:4], NUM_P [11:8], reserved [31:12] = 0. -/
def paramWord : Word :=
  0#20 ++ BitVec.ofNat 4 Config.numP ++ BitVec.ofNat 4 Config.numF ++ smulAlgBits Config.smulAlg ++
    invAlgBit Config.invAlg

/-- The irq output, level-sensitive: CTRL.IE AND STATUS.DONE (R27, R84). -/
def State.irq (s : State) : Bool := s.ie && s.done

end Sys2Proof.Machine
end

