-- ==== Sys2Proof/Machine/Bus.lean ====
section
/-! DEFINITION. The bus target: the address map of the window, host reads and host writes (R28 to R37,
R97, R98). -/

namespace Sys2Proof.Machine

/-- What an offset of the window names (R29 to R32). -/
inductive Target where
  | id
  | param
  | ctrl
  | status
  | cmd
  /-- word j of F[i] -/
  | fieldWord (i : RegField) (j : Nat)
  /-- word j of P[i].X -/
  | pointX (i : RegField) (j : Nat)
  /-- word j of P[i].Y -/
  | pointY (i : RegField) (j : Nat)
  /-- the INF word of P[i] -/
  | pointInf (i : RegField)
  /-- an offset that is not listed (R32) -/
  | reserved
deriving DecidableEq, Repr

/-- The place `r` within point register i (R31). -/
def pointTarget (i : RegField) (r : Nat) : Target :=
  if r < 0x20 then .pointX i (r / 4)
  else if r < 0x40 then .pointY i ((r - 0x20) / 4)
  else if r = 0x40 then .pointInf i
  else .reserved

/-- The address map, on offsets that are multiples of 4 (R29 to R32). -/
def targetOf (off : Nat) : Target :=
  if off = 0x000 then .id
  else if off = 0x004 then .param
  else if off = 0x008 then .ctrl
  else if off = 0x00C then .status
  else if off = 0x010 then .cmd
  else if off < 0x100 then .reserved
  else if off < 0x200 then
    .fieldWord (BitVec.ofNat 4 ((off - 0x100) / 0x20)) ((off - 0x100) % 0x20 / 4)
  else if off < 0x400 then
    pointTarget (BitVec.ofNat 4 ((off - 0x200) / 0x80)) ((off - 0x200) % 0x80)
  else .reserved

/-- Word j of a 256-bit register, bits [32j+31 : 32j] (R30, R33). -/
def getWord (v : FWord) (j : Nat) : Word := v.extractLsb' (32 * j) 32

/-- Replace word j of a 256-bit register; the other seven words stay (R30). -/
def setWord (v : FWord) (j : Nat) (w : Word) : FWord :=
  (v &&& ~~~((0xFFFFFFFF#256) <<< (32 * j))) ||| ((w.setWidth 256) <<< (32 * j))

/-- HostRead (R12): the word that the host reads at an offset, which has no side effect (R37, R98). -/
def readWord (s : State) (off : Nat) : Word :=
  match targetOf off with
  | .id => idWord
  | .param => paramWord
  | .ctrl => s.ctrlWord
  | .status => s.statusWord
  | .cmd => 0#32
  | .fieldWord i j => getWord (s.regs.getF i) j
  | .pointX i j => getWord (s.regs.getP i).x j
  | .pointY i j => getWord (s.regs.getP i).y j
  | .pointInf i => 0#31 ++ BitVec.ofBool (s.regs.getP i).inf
  | .reserved => 0#32

/-- A write to CTRL (R21, R95): a 1 in SRST resets the block whatever bit 0 is; else bit 0 is IE. -/
def writeCtrl (s : State) (v : Word) : State :=
  if v.getLsbD 1 then s.resetBlock else { s with ie := v.getLsbD 0 }

/-- A write that changes register files: dropped while BUSY = 1 (R97). -/
def writeRegs (s : State) (r : RegFiles) : State :=
  if s.busy then s.dropWrite else { s with regs := r }

/-- A write to CMD: accepted when BUSY = 0 (R73), dropped while BUSY = 1 (R97). -/
def writeCmd (s : State) (v : Word) : State := if s.busy then s.dropWrite else s.accept v

/-- HostWrite (R12): the effect of a word that the host writes at an offset. ID, PARAM and reserved
offsets ignore it (R19, R20, R32). -/
def writeWord (s : State) (off : Nat) (v : Word) : State :=
  match targetOf off with
  | .id => s
  | .param => s
  | .ctrl => writeCtrl s v
  | .status => s.clearStatus v
  | .cmd => writeCmd s v
  | .fieldWord i j => writeRegs s (s.regs.setF i (setWord (s.regs.getF i) j v))
  | .pointX i j =>
    writeRegs s (s.regs.setP i { s.regs.getP i with x := setWord (s.regs.getP i).x j v })
  | .pointY i j =>
    writeRegs s (s.regs.setP i { s.regs.getP i with y := setWord (s.regs.getP i).y j v })
  | .pointInf i => writeRegs s (s.regs.setP i { s.regs.getP i with inf := v.getLsbD 0 })
  | .reserved => s

/-- The block takes an access only as a whole aligned word (R35). -/
def Access.wholeWord (a : Access) : Bool := a.width == .w32 && a.off % 4 == 0

/-- One host access (R35 to R37). An access that is no whole aligned word gets the bus error response and
changes nothing else. -/
def busAccess (a : Access) (s : State) : Host.Outcome State Fault Refusal :=
  if Config.windowBytes ≤ a.off then .fault .outsideWindow
  else if a.wholeWord then
    match a.kind with
    | .read => .next { s with response := .data (readWord s a.off) }
    | .write v => .next { writeWord s a.off v with response := .accepted }
  else .next { s with response := .busError }

/-- The offset in the block's window of an address of the host's address space, or none if the address
lies outside the window (R28). The platform's bus does this before an access reaches the block. -/
def windowOffset (addr : Nat) : Option Nat :=
  if Config.blockBase ≤ addr ∧ addr < Config.blockBase + Config.windowBytes then
    some (addr - Config.blockBase)
  else none

end Sys2Proof.Machine
end

