-- ==== Sys2Proof/Decode.lean ====
section
/-! DEFINITION. The command word: its fields, the decoder (total on 32-bit words, rejecting by name), the
legality predicate and the mask-and-match table of the spec, and the encoder (R44 to R49). -/

namespace Sys2Proof

/-- OP, bits [7:0] (R45). -/
def opField (w : Word) : BitVec 8 := w.extractLsb' 0 8

/-- D, bits [11:8] (R45). -/
def dField (w : Word) : RegField := w.extractLsb' 8 4

/-- A, bits [15:12] (R45). -/
def aField (w : Word) : RegField := w.extractLsb' 12 4

/-- B, bits [19:16] (R45). -/
def bField (w : Word) : RegField := w.extractLsb' 16 4

/-- M, bit [20] (R45). -/
def mField (w : Word) : BitVec 1 := w.extractLsb' 20 1

/-- RSV, bits [31:21] (R45). -/
def rsvField (w : Word) : BitVec 11 := w.extractLsb' 21 11

/-- The modulus an M bit selects (R45, R52). -/
def modulusOf (b : BitVec 1) : Modulus := if b = 0#1 then .p else .n

/-- The M bit of a modulus (R45). -/
def modulusBit : Modulus → BitVec 1
  | .p => 0#1
  | .n => 1#1

/-- Why a word is no command (R49). -/
inductive Rejection where
  /-- a bit of RSV is set -/
  | reservedBits
  /-- OP is no opcode of R47 -/
  | unassignedOpcode
  /-- D lies outside its class -/
  | destination
  /-- A lies outside its class -/
  | sourceA
  /-- B lies outside its class -/
  | sourceB
  /-- M is set on a command that is no field command -/
  | modulusSelect
deriving DecidableEq, Repr

/-- What the decoder reads from a word. -/
inductive Decoded where
  | instr (i : Instr)
  | rejected (why : Rejection)
deriving DecidableEq, Repr

/-- The command `i`, if every check holds; else rejected with the name of the first that fails. -/
def require (i : Instr) : List (Bool × Rejection) → Decoded
  | [] => .instr i
  | (ok, why) :: rest => if ok then require i rest else .rejected why

/-- The decoder (R47, R48, R74). -/
def decode (w : Word) : Decoded :=
  let d := dField w
  let a := aField w
  let b := bField w
  let m := modulusOf (mField w)
  let zeroD := (d == 0#4, Rejection.destination)
  let zeroA := (a == 0#4, Rejection.sourceA)
  let zeroB := (b == 0#4, Rejection.sourceB)
  let zeroM := (mField w == 0#1, Rejection.modulusSelect)
  let fieldD := (isFieldReg d, Rejection.destination)
  let fieldA := (isFieldReg a, Rejection.sourceA)
  let fieldB := (isFieldReg b, Rejection.sourceB)
  let pointD := (isPointReg d, Rejection.destination)
  let pointA := (isPointReg a, Rejection.sourceA)
  let pointB := (isPointReg b, Rejection.sourceB)
  if rsvField w != 0#11 then .rejected .reservedBits
  else
    match (opField w).toNat with
    | 0x00 => require .nop [zeroD, zeroA, zeroB, zeroM]
    | 0x01 => require (.fadd d a b m) [fieldD, fieldA, fieldB]
    | 0x02 => require (.fsub d a b m) [fieldD, fieldA, fieldB]
    | 0x03 => require (.fmul d a b m) [fieldD, fieldA, fieldB]
    | 0x04 => require (.finv d a m) [fieldD, fieldA, zeroB]
    | 0x05 => require (.fred d a m) [fieldD, fieldA, zeroB]
    | 0x10 => require (.padd d a b) [pointD, pointA, pointB, zeroM]
    | 0x11 => require (.pdbl d a) [pointD, pointA, zeroB, zeroM]
    | 0x12 => require (.pmul d a b) [pointD, fieldA, pointB, zeroM]
    | 0x13 => require (.pchk a) [zeroD, pointA, zeroB, zeroM]
    | _ => .rejected .unassignedOpcode

/-- The predicate legal(w) of R48, clause by clause as the rule writes it. -/
def legal (w : Word) : Bool :=
  w.extractLsb' 21 11 == 0#11 &&
  match (w.extractLsb' 0 8).toNat with
  | 0x00 => w.extractLsb' 8 13 == 0#13
  | 0x01 | 0x02 | 0x03 => !w.getLsbD 11 && !w.getLsbD 15 && !w.getLsbD 19
  | 0x04 | 0x05 => !w.getLsbD 11 && !w.getLsbD 15 && w.extractLsb' 16 4 == 0#4
  | 0x10 =>
    w.extractLsb' 10 2 == 0#2 && w.extractLsb' 14 2 == 0#2 && w.extractLsb' 18 2 == 0#2 &&
      !w.getLsbD 20
  | 0x11 =>
    w.extractLsb' 10 2 == 0#2 && w.extractLsb' 14 2 == 0#2 && w.extractLsb' 16 4 == 0#4 &&
      !w.getLsbD 20
  | 0x12 =>
    w.extractLsb' 10 2 == 0#2 && !w.getLsbD 15 && w.extractLsb' 18 2 == 0#2 && !w.getLsbD 20
  | 0x13 =>
    w.extractLsb' 8 4 == 0#4 && w.extractLsb' 14 2 == 0#2 && w.extractLsb' 16 4 == 0#4 &&
      !w.getLsbD 20
  | _ => false

/-- A row of R47's mask-and-match table. -/
structure OpcodeRow where
  mnemonic : String
  pattern : Word
  mask : Word
deriving DecidableEq, Repr

/-- R47's mask-and-match table. -/
def opcodeTable : List OpcodeRow :=
  [⟨"NOP", 0x00000000#32, 0xFFFFFFFF#32⟩,
   ⟨"FADD", 0x00000001#32, 0xFFE888FF#32⟩,
   ⟨"FSUB", 0x00000002#32, 0xFFE888FF#32⟩,
   ⟨"FMUL", 0x00000003#32, 0xFFE888FF#32⟩,
   ⟨"FINV", 0x00000004#32, 0xFFEF88FF#32⟩,
   ⟨"FRED", 0x00000005#32, 0xFFEF88FF#32⟩,
   ⟨"PADD", 0x00000010#32, 0xFFFCCCFF#32⟩,
   ⟨"PDBL", 0x00000011#32, 0xFFFFCCFF#32⟩,
   ⟨"PMUL", 0x00000012#32, 0xFFFC8CFF#32⟩,
   ⟨"PCHK", 0x00000013#32, 0xFFFFCFFF#32⟩]

/-- The row of R47 that a command stands for. -/
def Instr.mnemonic : Instr → String
  | .nop => "NOP"
  | .fadd _ _ _ _ => "FADD"
  | .fsub _ _ _ _ => "FSUB"
  | .fmul _ _ _ _ => "FMUL"
  | .finv _ _ _ => "FINV"
  | .fred _ _ _ => "FRED"
  | .padd _ _ _ => "PADD"
  | .pdbl _ _ => "PDBL"
  | .pmul _ _ _ => "PMUL"
  | .pchk _ => "PCHK"

/-- A word matches a row when w & mask = match (R47). -/
def OpcodeRow.covers (r : OpcodeRow) (w : Word) : Bool := w &&& r.mask == r.pattern

/-- A command word from its fields, RSV being 0 (R45). -/
def commandWord (op : BitVec 8) (d a b : RegField) (m : BitVec 1) : Word :=
  0#11 ++ m ++ b ++ a ++ d ++ op

/-- The encoder (R45, R47). -/
def encode : Instr → Word
  | .nop => commandWord 0x00#8 0#4 0#4 0#4 0#1
  | .fadd d a b m => commandWord 0x01#8 d a b (modulusBit m)
  | .fsub d a b m => commandWord 0x02#8 d a b (modulusBit m)
  | .fmul d a b m => commandWord 0x03#8 d a b (modulusBit m)
  | .finv d a m => commandWord 0x04#8 d a 0#4 (modulusBit m)
  | .fred d a m => commandWord 0x05#8 d a 0#4 (modulusBit m)
  | .padd d a b => commandWord 0x10#8 d a b 0#1
  | .pdbl d a => commandWord 0x11#8 d a 0#4 0#1
  | .pmul d a b => commandWord 0x12#8 d a b 0#1
  | .pchk a => commandWord 0x13#8 0#4 a 0#4 0#1

/-- The host's question about one row of the opcode table: the command that the decoder reads from the
word of the table's bits, bit 0 the least significant (every command is one 32-bit word, R44). -/
def decodeTableWord (nbits w : Nat) : Option Instr :=
  match decode (BitVec.ofNat 32 (w % 2 ^ nbits)) with
  | .instr i => some i
  | .rejected _ => none

end Sys2Proof
end

