-- ==== Sys2Proof/Machine/Control.lean ====
section
/-! DEFINITION. NOP (R78). -/

namespace Sys2Proof.Machine

/-- The body of NOP (R78). -/
def nopBody : Result := .ok nopEffect

/-- NOP (R78). -/
def execNop (s : State) : Host.Outcome State Fault Refusal := finish .nop nopBody s

end Sys2Proof.Machine
end

