-- ==== Sys2Proof/Machine/Operands.lean ====
section
/-! DEFINITION. How a body reads its operands: a reduced field operand (R53), a field value taken as it
is (R60, R71), and a point operand with its checks (R61). -/

namespace Sys2Proof.Machine

/-- A field operand that must be reduced: a value at or above m raises RANGE (R53). -/
def reducedOperand (S : RegFiles) (m : Modulus) (i : RegField) : Except ErrCode Nat :=
  if (S.getF i).toNat < m.value then .ok (S.getF i).toNat else .error .range

/-- The operand of FRED and the scalar of PMUL: any 256-bit value (R53, R60, R71). -/
def anyOperand (S : RegFiles) (i : RegField) : Nat := (S.getF i).toNat

/-- (x, y) lies on the curve: (y·y - (x·x·x + a·x + 7)) mod p = 0 (R11, R61). -/
def onCurve (x y : Nat) : Bool :=
  modInt ((y : Int) * y - ((x : Int) * x * x + Config.curveA * x + Config.curveB)) Config.curveP == 0

/-- pvalid of R61 on the contents of a point register: O if INF = 1, whatever X and Y hold; RANGE if a
coordinate is at or above p; CURVE if the pair is off the curve. -/
def pointOf (r : PointReg) : Except ErrCode Point :=
  if r.inf then .ok .infinity
  else if Config.curveP ≤ r.x.toNat ∨ Config.curveP ≤ r.y.toNat then .error .range
  else if onCurve r.x.toNat r.y.toNat then .ok (.affine r.x.toNat r.y.toNat)
  else .error .curve

/-- pvalid(i) of R61. -/
def pointOperand (S : RegFiles) (i : RegField) : Except ErrCode Point := pointOf (S.getP i)

end Sys2Proof.Machine
end

