-- ==== Sys2Proof/Machine/Field.lean ====
section
/-! DEFINITION. The modular arithmetic commands FADD, FSUB, FMUL, FINV and FRED (R52 to R60). A body is
the rule's pseudocode on the snapshot; a meaning finishes the command with its body's outcome. -/

namespace Sys2Proof.Machine

/-- The body of FADD (R56). -/
def faddBody (d a b : RegField) (m : Modulus) (S : RegFiles) : Result := do
  let va ← reducedOperand S m a
  let vb ← reducedOperand S m b
  .ok (fieldEffect d (modInt ((va : Int) + vb) m.value))

/-- The body of FSUB (R57). -/
def fsubBody (d a b : RegField) (m : Modulus) (S : RegFiles) : Result := do
  let va ← reducedOperand S m a
  let vb ← reducedOperand S m b
  .ok (fieldEffect d (modInt ((va : Int) - vb) m.value))

/-- The body of FMUL (R58). -/
def fmulBody (d a b : RegField) (m : Modulus) (S : RegFiles) : Result := do
  let va ← reducedOperand S m a
  let vb ← reducedOperand S m b
  .ok (fieldEffect d (modInt ((va : Int) * vb) m.value))

/-- The body of FINV (R59): RANGE is checked before DOMAIN. -/
def finvBody (d a : RegField) (m : Modulus) (S : RegFiles) : Result := do
  let va ← reducedOperand S m a
  if va = 0 then .error .domain else .ok (fieldEffect d (invMod m.value va))

/-- The body of FRED (R60). -/
def fredBody (d a : RegField) (m : Modulus) (S : RegFiles) : Result :=
  .ok (fieldEffect d (anyOperand S a % m.value))

/-- FADD (R56). -/
def execFadd (d a b : RegField) (m : Modulus) (s : State) : Host.Outcome State Fault Refusal :=
  finish (.fadd d a b m) (faddBody d a b m s.operands) s

/-- FSUB (R57). -/
def execFsub (d a b : RegField) (m : Modulus) (s : State) : Host.Outcome State Fault Refusal :=
  finish (.fsub d a b m) (fsubBody d a b m s.operands) s

/-- FMUL (R58). -/
def execFmul (d a b : RegField) (m : Modulus) (s : State) : Host.Outcome State Fault Refusal :=
  finish (.fmul d a b m) (fmulBody d a b m s.operands) s

/-- FINV (R59). -/
def execFinv (d a : RegField) (m : Modulus) (s : State) : Host.Outcome State Fault Refusal :=
  finish (.finv d a m) (finvBody d a m s.operands) s

/-- FRED (R60). -/
def execFred (d a : RegField) (m : Modulus) (s : State) : Host.Outcome State Fault Refusal :=
  finish (.fred d a m) (fredBody d a m s.operands) s

end Sys2Proof.Machine
end

