-- ==== Sys2Proof/Machine/Group.lean ====
section
/-! DEFINITION. The group law (R62) and the point commands PADD, PDBL and PCHK (R65 to R67). -/

namespace Sys2Proof.Machine

/-- neg(P) of R11. The block has no negation command (R51); the group law's inverse test and the claims
use it. -/
def Point.neg : Point → Point
  | .infinity => .infinity
  | .affine x y => .affine x (modInt (-(y : Int)) Config.curveP)

/-- The third point of R62 from the slope: x3 = lam² - x1 - x2, y3 = lam·(x1 - x3) - y1, mod p. -/
def chordPoint (lam x1 y1 x2 : Nat) : Point :=
  let x3 := modInt ((lam : Int) * lam - x1 - x2) Config.curveP
  .affine x3 (modInt ((lam : Int) * ((x1 : Int) - x3) - y1) Config.curveP)

/-- add(P, Q) of R62, its cases in the order the rule tries them. The DOMAIN lines keep the function
total; R63 says that no operands which pass `pointOperand` reach them. -/
def pointAdd : Point → Point → Except ErrCode Point
  | .infinity, Q => .ok Q
  | .affine x1 y1, .infinity => .ok (.affine x1 y1)
  | .affine x1 y1, .affine x2 y2 =>
    if x1 = x2 ∧ y1 = modInt (-(y2 : Int)) Config.curveP then .ok .infinity
    else if x1 = x2 ∧ y1 = y2 then
      let t := modInt (2 * (y1 : Int)) Config.curveP
      if t = 0 then .error .domain
      else
        let lam := modInt ((3 * (x1 : Int) * x1 + Config.curveA) * invMod Config.curveP t) Config.curveP
        .ok (chordPoint lam x1 y1 x2)
    else
      let t := modInt ((x2 : Int) - x1) Config.curveP
      if t = 0 then .error .domain
      else
        let lam := modInt (((y2 : Int) - y1) * invMod Config.curveP t) Config.curveP
        .ok (chordPoint lam x1 y1 x2)

/-- The body of PADD (R65): B is checked only if A passed. -/
def paddBody (d a b : RegField) (S : RegFiles) : Result := do
  let Pa ← pointOperand S a
  let Pb ← pointOperand S b
  let R ← pointAdd Pa Pb
  .ok (pointEffect d R)

/-- The body of PDBL (R66). -/
def pdblBody (d a : RegField) (S : RegFiles) : Result := do
  let Pa ← pointOperand S a
  let R ← pointAdd Pa Pa
  .ok (pointEffect d R)

/-- The body of PCHK (R67). -/
def pchkBody (a : RegField) (S : RegFiles) : Result := do
  let Pa ← pointOperand S a
  .ok (checkEffect Pa)

/-- PADD (R65). -/
def execPadd (d a b : RegField) (s : State) : Host.Outcome State Fault Refusal :=
  finish (.padd d a b) (paddBody d a b s.operands) s

/-- PDBL (R66). -/
def execPdbl (d a : RegField) (s : State) : Host.Outcome State Fault Refusal :=
  finish (.pdbl d a) (pdblBody d a s.operands) s

/-- PCHK (R67). -/
def execPchk (a : RegField) (s : State) : Host.Outcome State Fault Refusal :=
  finish (.pchk a) (pchkBody a s.operands) s

end Sys2Proof.Machine
end

