-- ==== Sys2Proof/Machine/Scalar.lean ====
section
/-! DEFINITION. The scalar point multiplier: mul(k, P) of R68, the algorithms an implementation may use
instead (R69), and PMUL (R71). -/

namespace Sys2Proof.Machine

/-- The loop of R68 over the low `i` bits of k', most significant first. -/
def mulLoop (k : Nat) (P : Point) : Nat → Point → Except ErrCode Point
  | 0, R => .ok R
  | i + 1, R => do
    let D ← pointAdd R R
    let R' ← if k.testBit i then pointAdd D P else .ok D
    mulLoop k P i R'

/-- mul(k, P) of R68: k is reduced modulo n first. -/
def scalarMul (k : Nat) (P : Point) : Except ErrCode Point :=
  mulLoop (k % Config.curveN) P 256 .infinity

/-- Double-and-add from the least significant bit: Q is 2^i · P, and `j` bits are left. -/
def lsbLoop (k : Nat) : Nat → Nat → Point → Point → Except ErrCode Point
  | 0, _, R, _ => .ok R
  | j + 1, i, R, Q => do
    let R' ← if k.testBit i then pointAdd R Q else .ok R
    let Q' ← pointAdd Q Q
    lsbLoop k j (i + 1) R' Q'

/-- The `c`-fold sum P + ... + P: an entry of the fixed-window method's table. -/
def multiple (P : Point) : Nat → Except ErrCode Point
  | 0 => .ok .infinity
  | c + 1 => do
    let R ← multiple P c
    pointAdd R P

/-- `j` doublings. -/
def doubleTimes : Nat → Point → Except ErrCode Point
  | 0, R => .ok R
  | j + 1, R => do
    let D ← pointAdd R R
    doubleTimes j D

/-- The fixed-window method over the low `i` digits of w bits, most significant first: w doublings, then
one addition of the table entry of the digit. -/
def windowLoop (w k : Nat) (P : Point) : Nat → Point → Except ErrCode Point
  | 0, R => .ok R
  | i + 1, R => do
    let D ← doubleTimes w R
    let T ← multiple P ((k >>> (w * i)) % 2 ^ w)
    let R' ← pointAdd D T
    windowLoop w k P i R'

/-- The Montgomery ladder over the low `i` bits, most significant first; R1 = R0 + P throughout. -/
def ladderLoop (k : Nat) : Nat → Point → Point → Except ErrCode Point
  | 0, R0, _ => .ok R0
  | i + 1, R0, R1 => do
    let S ← pointAdd R0 R1
    if k.testBit i then do
      let D ← pointAdd R1 R1
      ladderLoop k i S D
    else do
      let D ← pointAdd R0 R0
      ladderLoop k i D S

/-- How many digits of w bits cover a 256-bit scalar. -/
def windowDigits (w : Nat) : Nat := (255 + w) / w

/-- mul(k, P) as an implementation with the given SMUL_ALG computes it (R20, R69); `w` is the number of
bits in a digit of the fixed-window method. -/
def scalarMulBy (w : Nat) : Config.SmulAlg → Nat → Point → Except ErrCode Point
  | .daMsb, k, P => scalarMul k P
  | .daLsb, k, P => lsbLoop (k % Config.curveN) 256 0 .infinity P
  | .window, k, P => windowLoop w (k % Config.curveN) P (windowDigits w) .infinity
  | .ladder, k, P => ladderLoop (k % Config.curveN) 256 .infinity P

/-- The body of PMUL (R71): the point is checked whatever the scalar is. -/
def pmulBody (d a b : RegField) (S : RegFiles) : Result := do
  let Pb ← pointOperand S b
  let R ← scalarMul (anyOperand S a) Pb
  .ok (pointEffect d R)

/-- PMUL (R71). -/
def execPmul (d a b : RegField) (s : State) : Host.Outcome State Fault Refusal :=
  finish (.pmul d a b) (pmulBody d a b s.operands) s

end Sys2Proof.Machine
end

