-- ==== Sys2Proof/Machine/Engine.lean ====
section
/-! DEFINITION. The engine: running the command word in the latch and completing it (R72 to R76). -/

namespace Sys2Proof.Machine

/-- Decode a command word and run it to its completion; a word that is not legal completes with ILLEGAL
(R49, R74). -/
def runWord (w : Word) (s : State) : Host.Outcome State Fault Refusal :=
  match decode w with
  | .instr i => exec i s
  | .rejected _ => .next (s.completeErr .illegal)

/-- One cycle of the engine. With a command in flight it counts the cycle, and completes the command in
the cycle in which the latch's cycles run out (R26, R75). Idle, it holds everything (R93). -/
def engineTurn (s : State) : Host.Outcome State Fault Refusal :=
  match s.busy, s.latch with
  | true, some l =>
    if l.remaining ≤ 1 then runWord l.word s
    else .next { s with latch := some { l with remaining := l.remaining - 1 } }
  | _, _ => .next s

/-- A command word placed where the next engine turn completes it: accepted on the registers as they
stand, with its cycles run out, and the engine to move next (assumption 4). -/
def placeCommand (s : State) (w : Word) : State :=
  { s.acceptWith w 1 with turns := .engine :: s.turns }

end Sys2Proof.Machine
end

