-- ==== Sys2Proof/Machine/Step.lean ====
section
/-! DEFINITION. One step of the machine: one move of the host, of the engine or of the platform's reset
input (R72, R85, R94). -/

namespace Sys2Proof.Machine

/-- One step: the next move of `turns`, or the engine's when none is left. -/
def step (s : State) : Host.Outcome State Fault Refusal :=
  match s.turns with
  | [] => engineTurn s
  | .engine :: rest => engineTurn { s with turns := rest }
  | .access a :: rest => busAccess a { s with turns := rest }
  | .hardReset :: rest => .next (State.resetBlock { s with turns := rest })

/-- The host's question about one command word: the word, bit 0 its least significant, is in flight with
its cycles run out and the engine moves next, so that the next step runs it (assumption 4). -/
def State.withFetchWord (s : State) (nbits w : Nat) : State :=
  placeCommand s (BitVec.ofNat 32 (w % 2 ^ nbits))

end Sys2Proof.Machine
end

