-- ==== Sys2Proof/Machine/Assembler.lean ====
section
/-! DEFINITION. The assembler syntax and the pseudo-instructions (R50, R51), on lines whose tokens are
already apart; `AsmLine.text` is the line as R50 prints it. -/

namespace Sys2Proof.Machine

/-- An operand of an assembler line: f0..f7 or p0..p3 (R50). -/
inductive AsmReg where
  | f (i : RegField)
  | p (i : RegField)
deriving DecidableEq, Repr

/-- An assembler line: a mnemonic, the suffix `.p` or `.n` if there is one, and the operands, destination
first (R50). -/
structure AsmLine where
  mnemonic : String
  suffix : Option Modulus
  operands : List AsmReg
deriving DecidableEq, Repr

/-- The command that a line stands for, its operand classes not yet checked (R50, R51). A field mnemonic
without a suffix means `.p`; the other mnemonics take none. -/
def assembleRaw (l : AsmLine) : Option Instr :=
  let m := l.suffix.getD .p
  match l.mnemonic, l.operands with
  | "fadd", [.f d, .f a, .f b] => some (.fadd d a b m)
  | "fsub", [.f d, .f a, .f b] => some (.fsub d a b m)
  | "fmul", [.f d, .f a, .f b] => some (.fmul d a b m)
  | "finv", [.f d, .f a] => some (.finv d a m)
  | "fred", [.f d, .f a] => some (.fred d a m)
  | "fsqr", [.f d, .f a] => some (.fmul d a a m)
  | "fcpy", [.f d, .f a] => some (.fred d a m)
  | "fdbl", [.f d, .f a] => some (.fadd d a a m)
  | mnemonic, operands =>
    if l.suffix.isSome then none
    else
      match mnemonic, operands with
      | "nop", [] => some .nop
      | "padd", [.p d, .p a, .p b] => some (.padd d a b)
      | "pdbl", [.p d, .p a] => some (.pdbl d a)
      | "pmul", [.p d, .f a, .p b] => some (.pmul d a b)
      | "pchk", [.p a] => some (.pchk a)
      | _, _ => none

/-- The assembler: a line whose registers exist, as the command it encodes (R50, R51). -/
def assemble (l : AsmLine) : Option Instr := (assembleRaw l).filter Instr.wellFormed

/-- The line of a command (R50). -/
def disassemble : Instr → AsmLine
  | .nop => ⟨"nop", none, []⟩
  | .fadd d a b m => ⟨"fadd", some m, [.f d, .f a, .f b]⟩
  | .fsub d a b m => ⟨"fsub", some m, [.f d, .f a, .f b]⟩
  | .fmul d a b m => ⟨"fmul", some m, [.f d, .f a, .f b]⟩
  | .finv d a m => ⟨"finv", some m, [.f d, .f a]⟩
  | .fred d a m => ⟨"fred", some m, [.f d, .f a]⟩
  | .padd d a b => ⟨"padd", none, [.p d, .p a, .p b]⟩
  | .pdbl d a => ⟨"pdbl", none, [.p d, .p a]⟩
  | .pmul d a b => ⟨"pmul", none, [.p d, .f a, .p b]⟩
  | .pchk a => ⟨"pchk", none, [.p a]⟩

/-- A register's name (R50). -/
def AsmReg.text : AsmReg → String
  | .f i => "f" ++ toString i.toNat
  | .p i => "p" ++ toString i.toNat

/-- The line as R50 writes it. -/
def AsmLine.text (l : AsmLine) : String :=
  let suffix :=
    match l.suffix with
    | none => ""
    | some .p => ".p"
    | some .n => ".n"
  let operands := ", ".intercalate (l.operands.map AsmReg.text)
  l.mnemonic ++ suffix ++ (if l.operands.isEmpty then "" else " ") ++ operands

end Sys2Proof.Machine
end

