-- ==== Sys2Proof/Machine/HostProgram.lean ====
section
/-! DEFINITION. The host's side of the bus as lists of moves: the access primitives of R12, loading a
register word by word (R30, R31), and a hash as register words (R34). -/

namespace Sys2Proof.Machine

/-- HostRead(off) (R12). -/
def hostRead (off : Nat) : Turn := .access ⟨off, .w32, .read⟩

/-- HostWrite(off, v) (R12). -/
def hostWrite (off : Nat) (v : Word) : Turn := .access ⟨off, .w32, .write v⟩

/-- The offset of word j of F[i] (R30). -/
def fieldOffset (i : RegField) (j : Nat) : Nat := 0x100 + 0x20 * i.toNat + 4 * j

/-- The offset of the byte `r` within P[i] (R31). -/
def pointOffset (i : RegField) (r : Nat) : Nat := 0x200 + 0x80 * i.toNat + r

/-- Eight writes, word 0 first, of the words `w 0` .. `w 7` of F[i]. -/
def loadFieldWords (i : RegField) (w : Nat → Word) : List Turn :=
  (List.range 8).map fun j => hostWrite (fieldOffset i j) (w j)

/-- F[i] <- v by eight writes (R30). -/
def loadField (i : RegField) (v : FWord) : List Turn := loadFieldWords i (getWord v)

/-- P[i] <- (x, y) by sixteen writes of coordinates and then INF = 0 (R31, R96). -/
def loadPoint (i : RegField) (x y : FWord) : List Turn :=
  ((List.range 8).map fun j => hostWrite (pointOffset i (4 * j)) (getWord x j)) ++
    ((List.range 8).map fun j => hostWrite (pointOffset i (0x20 + 4 * j)) (getWord y j)) ++
    [hostWrite (pointOffset i 0x40) 0#32]

/-- The integer z of a hash h[0..31], big-endian: the sum of h[i]·256^(31-i) (R34). -/
def hashInteger (h : Vector (BitVec 8) 32) : Nat :=
  h.toList.foldl (fun z b => 256 * z + b.toNat) 0

/-- Word j of the register that holds a hash:
(h[28-4j] << 24) | (h[29-4j] << 16) | (h[30-4j] << 8) | h[31-4j] (R34). -/
def hashWord (h : Vector (BitVec 8) 32) (j : Nat) : Word :=
  let byte (k : Nat) : BitVec 8 := (h[k - 4 * j]?).getD 0#8
  byte 28 ++ byte 29 ++ byte 30 ++ byte 31

end Sys2Proof.Machine
end

