-- ==== Sys2Proof/Safety.lean ====
section
/-! DEFINITION. What claims about the block are stated in: the invariant of its states, valid points, and the
shapes a completed command leaves behind (R22, R26, R36, R61, R75, R81). -/

namespace Sys2Proof.Machine

/-- The invariant of R22, R26, R73, R79 and R101. -/
structure State.Inv (s : State) : Prop where
  /-- the latch is empty exactly when BUSY = 0 (R26) -/
  latch_iff_busy : s.busy = s.latch.isSome
  /-- the snapshot equals the live register files until completion (R73) -/
  snapshot_live : ∀ l, s.latch = some l → l.snapshot = s.regs
  /-- at least one cycle and at most MAX_LATENCY are left (R101) -/
  cycles_left : ∀ l, s.latch = some l → 1 ≤ l.remaining ∧ l.remaining ≤ Config.maxLatency
  /-- DONE = 1 implies BUSY = 0 (R22) -/
  done_idle : s.done = true → s.busy = false
  /-- ERR = 1 implies BUSY = 0: acceptance clears it and only completion sets it (R22) -/
  err_idle : s.err = true → s.busy = false
  /-- ERRCODE ≠ 0 exactly when ERR = 1 (R22) -/
  errcode_iff_err : s.errcode ≠ 0#4 ↔ s.err = true
  /-- the codes 5..15 are never written (R79) -/
  errcode_assigned : s.errcode.toNat ≤ 4

/-- A point value that passed `pvalid` (R11, R61): O, or a pair below p on the curve. -/
def Point.Valid : Point → Prop
  | .infinity => True
  | .affine x y => x < Config.curveP ∧ y < Config.curveP ∧ onCurve x y = true

/-- A point register holds the point value R as a command writes it (R16). -/
def Holds (r : PointReg) : Point → Prop
  | .infinity => r.inf = true ∧ r.x = 0#256 ∧ r.y = 0#256
  | .affine x y => r.inf = false ∧ r.x.toNat = x ∧ r.y.toNat = y

/-- From s, a command completed without error, wrote the number r to F[d] and Z <- (r = 0), and changed
nothing else but BUSY, DONE and the latch (R54, R75). -/
structure WroteField (s t : State) (d : RegField) (r : Nat) : Prop where
  value : (t.regs.getF d).toNat = r
  otherFields : ∀ j, j ≠ d → t.regs.getF j = s.regs.getF j
  points : ∀ j, t.regs.getP j = s.regs.getP j
  rest : t = { s with
    regs := t.regs, z := decide (r = 0), busy := false, done := true, latch := none }

/-- From s, a command completed without error, wrote the point value R to P[d] and Z <- (R = O), and
changed nothing else but BUSY, DONE and the latch (R24, R75). -/
structure WrotePoint (s t : State) (d : RegField) (R : Point) : Prop where
  value : Holds (t.regs.getP d) R
  otherPoints : ∀ j, j ≠ d → t.regs.getP j = s.regs.getP j
  fields : ∀ j, t.regs.getF j = s.regs.getF j
  rest : t = { s with
    regs := t.regs, z := decide (R = .infinity), busy := false, done := true, latch := none }

/-- From s, a command completed without error and wrote no register; Z is z, and nothing else changed but
BUSY, DONE and the latch (R67, R75, R78). -/
def WroteNothing (s t : State) (z : Bool) : Prop :=
  t = { s with z := z, busy := false, done := true, latch := none }

/-- From s, a command completed with the error code c: DONE = ERR = 1, ERRCODE = c, BUSY = 0, the latch
empty, and everything else unchanged, Z and every register among it (R75, R81). -/
def Errored (s t : State) (c : BitVec 4) : Prop :=
  t = { s with busy := false, done := true, err := true, errcode := c, latch := none }

/-- The engine moves next: it is its turn, or no other move is pending. -/
def State.engineNext (s : State) : Prop := s.turns = [] ∨ ∃ rest, s.turns = .engine :: rest

/-- The engine completes a command in this step: it moves next, a command is in flight, and its cycles have
run out (R75). -/
def State.completesNow (s : State) : Prop :=
  s.engineNext ∧ s.busy = true ∧ ∃ l, s.latch = some l ∧ l.remaining ≤ 1

/-- The host writes the word v to an offset as a whole aligned word in this step. -/
def State.hostWrites (s : State) (off : Nat) (v : Word) : Prop :=
  ∃ rest, s.turns = hostWrite off v :: rest

/-- The block is reset in this step, by the reset input or by CTRL.SRST (R94, R95). -/
def State.resetsNow (s : State) : Prop :=
  (∃ rest, s.turns = .hardReset :: rest) ∨ ∃ v, s.hostWrites 0x008 v ∧ v.getLsbD 1 = true

/-- A word of the register files, or the INF word of a point register, at this offset (R30, R31). -/
abbrev isRegisterWord (off : Nat) : Prop :=
  off % 4 = 0 ∧
    (0x100 ≤ off ∧ off < 0x200 ∨ 0x200 ≤ off ∧ off < 0x400 ∧ (off - 0x200) % 0x80 ≤ 0x40)

/-- An offset of the window that R29, R30 and R31 do not list (R32). -/
abbrev isReservedWord (off : Nat) : Prop :=
  off % 4 = 0 ∧
    (0x014 ≤ off ∧ off < 0x100 ∨ 0x200 ≤ off ∧ off < 0x400 ∧ 0x44 ≤ (off - 0x200) % 0x80 ∨
      0x400 ≤ off ∧ off < 0x1000)

/-- An offset among the words of the register that a command writes (R30, R31, R75). -/
def isDestinationWord (i : Instr) (off : Nat) : Prop :=
  match i with
  | .fadd d _ _ _ | .fsub d _ _ _ | .fmul d _ _ _ | .finv d _ _ | .fred d _ _ =>
    fieldOffset d 0 ≤ off ∧ off < fieldOffset d 8
  | .padd d _ _ | .pdbl d _ | .pmul d _ _ => pointOffset d 0 ≤ off ∧ off < pointOffset d 0x44
  | .nop | .pchk _ => False

end Sys2Proof.Machine
end

