-- ==== Sys2Proof/Certificates/Slice0/Obligations.lean ====
section
/-! DEFINITION. The statements for the provers. -/

open Sys2Proof Sys2Proof.Machine

/-! ## The command word -/

/-- Decoding what the encoder wrote gives the command back, for every well-formed command and so for every
register and modulus that the classes of R46 admit. -/
def Obligations.DecodeEncodeRoundTrip : Prop :=
  ∀ i : Instr, i.wellFormed = true → decode (encode i) = .instr i

/-- A word that the decoder reads as a command is that command's one encoding, and the command is well
formed: no bit of a word is ignored (R49). -/
def Obligations.EncodeDecodeRoundTrip : Prop :=
  ∀ (w : Word) (i : Instr), decode w = .instr i → encode i = w ∧ i.wellFormed = true

/-- R48: a word is legal when it matches exactly one row of R47's table; the rule's predicate says the same,
and so does the decoder. -/
def Obligations.LegalWordsMatchExactlyOneRow : Prop :=
  ∀ w : Word,
    (legal w = true ↔ (opcodeTable.filter (·.covers w)).length = 1) ∧
      (legal w = true ↔ ∃ i, decode w = .instr i)

/-- R45: OP | (D << 8) | (A << 12) | (B << 16) | (M << 20), and each field reads back from its own bits
with RSV = 0. -/
def Obligations.CommandWordLayout : Prop :=
  ∀ (op : BitVec 8) (d a b : RegField) (m : BitVec 1),
    (commandWord op d a b m).toNat =
        (op.toNat ||| d.toNat <<< 8 ||| a.toNat <<< 12 ||| b.toNat <<< 16 ||| m.toNat <<< 20) ∧
      opField (commandWord op d a b m) = op ∧ dField (commandWord op d a b m) = d ∧
      aField (commandWord op d a b m) = a ∧ bField (commandWord op d a b m) = b ∧
      mField (commandWord op d a b m) = m ∧ rsvField (commandWord op d a b m) = 0#11

/-- Words written out by hand from R45 and R47, with the commands they stand for, and words that stand for
none. The block knows only that such a word is ILLEGAL: the reason that the decoder names is the model's
choice (assumption 14). -/
def Obligations.SampleWordsDecode : Prop :=
  decode 0x00000000#32 = .instr .nop ∧
    decode 0x00110203#32 = .instr (.fmul 2#4 0#4 1#4 .n) ∧
    decode 0x00010201#32 = .instr (.fadd 2#4 0#4 1#4 .p) ∧
    decode 0x00127702#32 = .instr (.fsub 7#4 7#4 2#4 .n) ∧
    decode 0x00101504#32 = .instr (.finv 5#4 1#4 .n) ∧
    decode 0x00001405#32 = .instr (.fred 4#4 1#4 .p) ∧
    decode 0x00023310#32 = .instr (.padd 3#4 3#4 2#4) ∧
    decode 0x00000111#32 = .instr (.pdbl 1#4 0#4) ∧
    decode 0x00025112#32 = .instr (.pmul 1#4 5#4 2#4) ∧
    decode 0x00003013#32 = .instr (.pchk 3#4) ∧
    decode 0x00000100#32 = .rejected .destination ∧
    decode 0x00008012#32 = .rejected .sourceA ∧
    decode 0x00010004#32 = .rejected .sourceB ∧
    decode 0x00100010#32 = .rejected .modulusSelect ∧
    decode 0x00000006#32 = .rejected .unassignedOpcode ∧
    decode 0x00200001#32 = .rejected .reservedBits

/-- R50: the assembler reads back the line of every well-formed command; a field mnemonic without a suffix
means `.p`; and the rule's own example. -/
def Obligations.AssemblerRoundTrip : Prop :=
  (∀ i : Instr, i.wellFormed = true → assemble (disassemble i) = some i) ∧
    (∀ (l : AsmLine) (d a b : RegField), l.mnemonic ∈ ["fadd", "fsub", "fmul", "finv", "fred"] →
      l.suffix = none → l.operands ∈ [[.f d, .f a, .f b], [.f d, .f a]] →
        assemble l = assemble { l with suffix := some .p }) ∧
    (∀ l : AsmLine, l.mnemonic ∈ ["nop", "padd", "pdbl", "pmul", "pchk"] → l.suffix ≠ none →
      assemble l = none) ∧
    (assemble ⟨"fmul", some .n, [.f 2#4, .f 0#4, .f 1#4]⟩).map encode = some 0x00110203#32 ∧
    (disassemble (.fmul 2#4 0#4 1#4 .n)).text = "fmul.n f2, f0, f1"

/-- R51: the three pseudo-instructions stand for their expansions, with either suffix or none. -/
def Obligations.PseudoInstructionsExpand : Prop :=
  ∀ (m : Option Modulus) (d a : RegField),
    assemble ⟨"fsqr", m, [.f d, .f a]⟩ = assemble ⟨"fmul", m, [.f d, .f a, .f a]⟩ ∧
      assemble ⟨"fcpy", m, [.f d, .f a]⟩ = assemble ⟨"fred", m, [.f d, .f a]⟩ ∧
      assemble ⟨"fdbl", m, [.f d, .f a]⟩ = assemble ⟨"fadd", m, [.f d, .f a, .f a]⟩ ∧
      (isFieldReg d = true → isFieldReg a = true →
        assemble ⟨"fsqr", m, [.f d, .f a]⟩ = some (.fmul d a a (m.getD .p)) ∧
          assemble ⟨"fcpy", m, [.f d, .f a]⟩ = some (.fred d a (m.getD .p)) ∧
          assemble ⟨"fdbl", m, [.f d, .f a]⟩ = some (.fadd d a a (m.getD .p)))

/-! ## Reset, control and status -/

/-- R94: the state that the reset input leaves, whatever the block was doing. -/
def Obligations.HardwareResetState : Prop :=
  ∀ (s : State) (rest : List Turn), s.turns = .hardReset :: rest →
    ∃ t, step s = .next t ∧
      (∀ i, isFieldReg i = true → t.regs.getF i = 0#256) ∧
      (∀ i, isPointReg i = true → t.regs.getP i = ⟨0#256, 0#256, true⟩) ∧
      t.ie = false ∧ t.busy = false ∧ t.done = false ∧ t.err = false ∧ t.ovr = false ∧
      t.z = false ∧ t.errcode = 0#4 ∧ t.latch = none ∧ t.irq = false ∧
      readWord t 0x000 = 0x256B0100#32 ∧ readWord t 0x004 = readWord s 0x004 ∧
      readWord t 0x008 = 0#32 ∧ readWord t 0x00C = 0#32

/-- R95: a write of 1 to CTRL.SRST leaves the block as R94 does, busy or not, IE = 0 whatever bit 0 of the
word is, with no completion; the three fields of the model's own are not the block's and stay, but for
the move used up and its answer (assumptions 1 to 3). -/
def Obligations.SoftResetState : Prop :=
  ∀ (s : State) (v : Word), s.hostWrites 0x008 v → v.getLsbD 1 = true →
    step s = .next { State.reset with
        turns := s.turns.tail, response := .accepted, draws := s.draws } ∧
      ∀ t, step s = .next t → t.ie = false ∧ t.done = false ∧ t.irq = false ∧ t.latch = none ∧
        (readWord t 0x008).getLsbD 1 = false

/-- R21: IE is 0 after reset. CTRL reads IE in bit 0 and 0 elsewhere; a write with SRST = 0 sets IE from
bit 0 and changes nothing else, and one with SRST = 1 resets the block; both whether or not the block is
busy. -/
def Obligations.CtrlReadAndWrite : Prop :=
  ∀ (s : State) (v : Word),
    State.reset.ie = false ∧ (readWord s 0x008 = if s.ie then 1#32 else 0#32) ∧
      (v.getLsbD 1 = false → writeWord s 0x008 v = { s with ie := v.getLsbD 0 }) ∧
      (v.getLsbD 1 = true → writeWord s 0x008 v = s.resetBlock)

/-- R22, the layout and the host's writes: each bit of STATUS as it reads, and the three W1C bits, ERR
clearing ERRCODE with it; every other bit of a write is ignored, and the write acts busy or not. -/
def Obligations.StatusReadAndWrite : Prop :=
  ∀ (s : State) (v : Word),
    (readWord s 0x00C).toNat =
        s.busy.toNat + 2 * s.done.toNat + 4 * s.err.toNat + 8 * s.ovr.toNat + 16 * s.z.toNat +
          256 * s.errcode.toNat ∧
      ∃ t, writeWord s 0x00C v = t ∧
        t = { s with done := t.done, err := t.err, ovr := t.ovr, errcode := t.errcode } ∧
        (v.getLsbD 1 = true → t.done = false) ∧ (v.getLsbD 1 = false → t.done = s.done) ∧
        (v.getLsbD 2 = true → t.err = false ∧ t.errcode = 0#4) ∧
        (v.getLsbD 2 = false → t.err = s.err ∧ t.errcode = s.errcode) ∧
        (v.getLsbD 3 = true → t.ovr = false) ∧ (v.getLsbD 3 = false → t.ovr = s.ovr)

/-- R87: writing 6 to STATUS clears DONE, ERR and ERRCODE, and an idle block then accepts any word. -/
def Obligations.ErrorReturnClearsStatus : Prop :=
  ∀ (s : State) (w : Word), s.busy = false →
    writeWord s 0x00C 6#32 = { s with done := false, err := false, errcode := 0#4 } ∧
      (writeWord (writeWord s 0x00C 6#32) 0x010 w).busy = true ∧
      (writeWord s 0x010 w).busy = true ∧ (writeWord s 0x010 w).done = false ∧
      (writeWord s 0x010 w).err = false ∧ (writeWord s 0x010 w).errcode = 0#4

/-- R19, R20: ID and PARAM are constants and ignore writes; PARAM's fields, SMUL_ALG being at most 3. -/
def Obligations.IdAndParamAreConstant : Prop :=
  ∀ (s t : State) (v : Word),
    readWord s 0x000 = 0x256B0100#32 ∧ writeWord s 0x000 v = s ∧
      readWord t 0x004 = readWord s 0x004 ∧ writeWord s 0x004 v = s ∧
      (readWord s 0x004).extractLsb' 0 1 = (match Config.invAlg with
        | .fermat => 0#1
        | .eea => 1#1) ∧
      (readWord s 0x004).extractLsb' 1 3 = (match Config.smulAlg with
        | .daMsb => 0#3
        | .daLsb => 1#3
        | .window => 2#3
        | .ladder => 3#3) ∧
      (readWord s 0x004).extractLsb' 4 4 = 8#4 ∧ (readWord s 0x004).extractLsb' 8 4 = 4#4 ∧
      (readWord s 0x004).extractLsb' 12 20 = 0#20

/-- R84: irq is CTRL.IE AND STATUS.DONE at every instant. Setting IE while DONE = 1 raises it, clearing IE
lowers it and keeps DONE, and it falls with DONE: by the host's write, by an acceptance, by a reset. Every
completion, with an error or without, raises it when IE = 1. -/
def Obligations.IrqFollowsEnableAndDone : Prop :=
  ∀ s : State,
    (s.irq = true ↔ s.ie = true ∧ s.done = true) ∧
      (s.done = true → (writeWord s 0x008 1#32).irq = true) ∧
      ((writeWord s 0x008 0#32).irq = false ∧ (writeWord s 0x008 0#32).done = s.done) ∧
      (∀ v : Word, v.getLsbD 1 = true → (writeWord s 0x00C v).irq = false) ∧
      (∀ w : Word, s.busy = false → (writeWord s 0x010 w).irq = false) ∧
      s.resetBlock.irq = false ∧
      (s.completesNow → s.ie = true → ∃ t, step s = .next t ∧ t.irq = true)

/-! ## The window -/

/-- R30: word j of F[i] reads bits [32j+31 : 32j]; while the block is idle a write replaces that word, and
the other seven words, every other register and everything else stay. -/
def Obligations.FieldWordMap : Prop :=
  ∀ (s : State) (i : RegField) (j : Nat) (v : Word), isFieldReg i = true → j < 8 →
    (readWord s (0x100 + 0x20 * i.toNat + 4 * j)).toNat =
        (s.regs.getF i).toNat / 2 ^ (32 * j) % 2 ^ 32 ∧
      (s.busy = false → ∃ t, writeWord s (0x100 + 0x20 * i.toNat + 4 * j) v = t ∧
        (t.regs.getF i).extractLsb' (32 * j) 32 = v ∧
        (∀ k, k < 8 → k ≠ j →
          (t.regs.getF i).extractLsb' (32 * k) 32 = (s.regs.getF i).extractLsb' (32 * k) 32) ∧
        (∀ i', i' ≠ i → t.regs.getF i' = s.regs.getF i') ∧
        (∀ i', t.regs.getP i' = s.regs.getP i') ∧ t = { s with regs := t.regs })

/-- R31 (and R16, host writes): the words of P[i]. X and Y are eight words each and INF is bit 0 of its own
word, bits [31:1] of which read 0 and are ignored; a write of one of the three leaves the other two, every
other register and everything else as they were. The words after INF read 0 and ignore writes. -/
def Obligations.PointWordMap : Prop :=
  ∀ (s : State) (i : RegField) (j : Nat) (v : Word), isPointReg i = true → j < 8 →
    readWord s (0x200 + 0x80 * i.toNat + 4 * j) = (s.regs.getP i).x.extractLsb' (32 * j) 32 ∧
      readWord s (0x220 + 0x80 * i.toNat + 4 * j) = (s.regs.getP i).y.extractLsb' (32 * j) 32 ∧
      (readWord s (0x240 + 0x80 * i.toNat) = if (s.regs.getP i).inf then 1#32 else 0#32) ∧
      (s.busy = false →
        (∃ t, writeWord s (0x200 + 0x80 * i.toNat + 4 * j) v = t ∧
          (t.regs.getP i).x.extractLsb' (32 * j) 32 = v ∧
          (∀ k, k < 8 → k ≠ j →
            (t.regs.getP i).x.extractLsb' (32 * k) 32 = (s.regs.getP i).x.extractLsb' (32 * k) 32) ∧
          (t.regs.getP i).y = (s.regs.getP i).y ∧ (t.regs.getP i).inf = (s.regs.getP i).inf ∧
          (∀ i', i' ≠ i → t.regs.getP i' = s.regs.getP i') ∧
          (∀ i', t.regs.getF i' = s.regs.getF i') ∧ t = { s with regs := t.regs }) ∧
        (∃ t, writeWord s (0x220 + 0x80 * i.toNat + 4 * j) v = t ∧
          (t.regs.getP i).y.extractLsb' (32 * j) 32 = v ∧
          (∀ k, k < 8 → k ≠ j →
            (t.regs.getP i).y.extractLsb' (32 * k) 32 = (s.regs.getP i).y.extractLsb' (32 * k) 32) ∧
          (t.regs.getP i).x = (s.regs.getP i).x ∧ (t.regs.getP i).inf = (s.regs.getP i).inf ∧
          (∀ i', i' ≠ i → t.regs.getP i' = s.regs.getP i') ∧
          (∀ i', t.regs.getF i' = s.regs.getF i') ∧ t = { s with regs := t.regs }) ∧
        (∃ t, writeWord s (0x240 + 0x80 * i.toNat) v = t ∧
          t.regs.getP i = { s.regs.getP i with inf := v.getLsbD 0 } ∧
          (∀ i', i' ≠ i → t.regs.getP i' = s.regs.getP i') ∧
          (∀ i', t.regs.getF i' = s.regs.getF i') ∧ t = { s with regs := t.regs })) ∧
      ∀ k, 17 ≤ k → k < 32 →
        readWord s (0x200 + 0x80 * i.toNat + 4 * k) = 0#32 ∧
          writeWord s (0x200 + 0x80 * i.toNat + 4 * k) v = s

/-- R32: an unlisted offset reads 0 and ignores writes, with no other effect, busy or not; the reserved bits
of the mapped registers read 0 and ignore writes. -/
def Obligations.ReservedReadsZeroIgnoresWrites : Prop :=
  ∀ (s : State) (v : Word),
    (∀ off, isReservedWord off → readWord s off = 0#32 ∧ writeWord s off v = s) ∧
      readWord s 0x010 = 0#32 ∧
      (readWord s 0x004).extractLsb' 12 20 = 0#20 ∧ writeWord s 0x004 v = s ∧
      (readWord s 0x008).extractLsb' 2 30 = 0#30 ∧
      writeWord s 0x008 v = writeWord s 0x008 (v &&& 0x00000003#32) ∧
      (readWord s 0x00C).extractLsb' 5 3 = 0#3 ∧ (readWord s 0x00C).extractLsb' 12 20 = 0#20 ∧
      writeWord s 0x00C v = writeWord s 0x00C (v &&& 0x0000000E#32) ∧
      ∀ i, isPointReg i = true →
        (readWord s (0x240 + 0x80 * i.toNat)).extractLsb' 1 31 = 0#31 ∧
          writeWord s (0x240 + 0x80 * i.toNat) v =
            writeWord s (0x240 + 0x80 * i.toNat) (v &&& 0x00000001#32)

/-- R35: an access of another width, or at an offset that is no multiple of 4, gets a bus error response,
returns no data and changes nothing of the block. -/
def Obligations.BusErrorChangesNothing : Prop :=
  ∀ (s : State) (a : Access) (rest : List Turn), s.turns = .access a :: rest → a.off < 0x1000 →
    (a.width ≠ .w32 ∨ a.off % 4 ≠ 0) →
      step s = .next { s with turns := rest, response := .busError }

/-- R36, R37 and R98, at the level of a step: a whole aligned read at any offset of the window returns the
current word and changes nothing but the answer on the bus; a whole aligned write does to the block exactly
what `writeWord` says, and is answered. Both busy or not. The statements about `writeWord` (CTRL, STATUS, CMD,
the words of the registers, reserved offsets) reach a step through this one. The list of moves and the answer
held in a field are the model's choice (assumptions 1 and 2). -/
def Obligations.ReadsHaveNoSideEffectsAndWritesAct : Prop :=
  ∀ (s : State) (off : Nat) (rest : List Turn), off < 0x1000 → off % 4 = 0 →
    (s.turns = hostRead off :: rest →
      step s = .next { s with turns := rest, response := .data (readWord s off) }) ∧
    ∀ v : Word, s.turns = hostWrite off v :: rest →
      step s = .next { writeWord s off v with turns := rest, response := .accepted }

/-- R97: while BUSY = 1 a write to a register-file word, to an INF word or to CMD is dropped and sets OVR;
writes to CTRL, STATUS, ID, PARAM and reserved offsets act as at any other time and do not set OVR. In every
state, OVR stays 1 until the host writes 1 to STATUS bit 3 or a reset, through acceptances too. -/
def Obligations.WritesWhileBusy : Prop :=
  ∀ (s : State) (off : Nat) (v : Word), s.busy = true →
    (isRegisterWord off ∨ off = 0x010 → writeWord s off v = { s with ovr := true }) ∧
      (off = 0x000 ∨ off = 0x004 ∨ isReservedWord off → writeWord s off v = s) ∧
      (off = 0x008 ∨ off = 0x00C → (writeWord s off v).ovr = true → s.ovr = true) ∧
      (v.getLsbD 1 = false → writeWord s 0x008 v = { s with ie := v.getLsbD 0 }) ∧
      (v.getLsbD 1 = true → writeWord s 0x008 v = s.resetBlock) ∧
      writeWord s 0x00C v = s.clearStatus v ∧
      ∀ u t : State, step u = .next t → u.ovr = true →
        t.ovr = true ∨ u.resetsNow ∨ ∃ v', u.hostWrites 0x00C v' ∧ v'.getLsbD 3 = true

/-- R28: the window's base is a multiple of 4096, and an address of the host is an offset of the window
exactly when it is the base plus a number below 4096. -/
def Obligations.WindowAddresses : Prop :=
  Config.blockBase % 4096 = 0 ∧
    ∀ addr off : Nat, windowOffset addr = some off ↔ off < 4096 ∧ addr = Config.blockBase + off

/-- R30, R33: eight writes of the words of v, word 0 first, load F[i] with v on an idle block and change
nothing else; written from the bytes of a hash as R34 says, the words load its big-endian integer. -/
def Obligations.LoadingAFieldRegister : Prop :=
  ∀ (s : State) (i : RegField) (rest : List Turn), isFieldReg i = true → s.busy = false →
    (∀ v : FWord, s.turns = loadField i v ++ rest →
      ∃ t, Host.Core.run Sys2Proof.core 8 s = .next t ∧ t.regs.getF i = v ∧
        (∀ j, j ≠ i → t.regs.getF j = s.regs.getF j) ∧ (∀ j, t.regs.getP j = s.regs.getP j) ∧
        t = { s with regs := t.regs, turns := rest, response := .accepted }) ∧
    (∀ h : Vector (BitVec 8) 32, s.turns = loadFieldWords i (hashWord h) ++ rest →
      ∃ t, Host.Core.run Sys2Proof.core 8 s = .next t ∧
        (t.regs.getF i).toNat = hashInteger h)

/-! ## The life of a command -/

/-- R73: a word written to CMD while BUSY = 0 is accepted in one step. The latch takes the word, a snapshot
of every register and a latency in range; OVR and Z are unchanged; irq falls; and the outcome depends only
on the word and the snapshot: one result, whatever else the state that completes it holds. -/
def Obligations.AcceptanceTakesASnapshot : Prop :=
  ∀ (s : State) (w : Word), s.hostWrites 0x010 w → s.busy = false →
    ∃ t cycles, step s = .next t ∧ 1 ≤ cycles ∧ cycles ≤ Config.maxLatency ∧
      t = { s with
        busy := true, done := false, err := false, errcode := 0#4,
        latch := some ⟨w, s.regs, cycles⟩, turns := s.turns.tail, response := .accepted,
        draws := s.draws + 1 } ∧
      t.irq = false ∧
      ∃ r : Result, ∀ u : State, (∃ l, u.latch = some l ∧ l.snapshot = s.regs) →
        runWord w u = .next (u.complete r)

/-- R75: the step in which a command's cycles run out runs the command that its word decodes to, with its
own move taken from the list and nothing else around it. -/
def Obligations.StepRunsTheDecodedCommand : Prop :=
  ∀ (s : State) (l : Latch) (i : Instr), s.engineNext → s.busy = true → s.latch = some l →
    l.remaining ≤ 1 → decode l.word = .instr i →
      step s = exec i { s with turns := s.turns.tail }

/-- The host's fetch helper: the next step after placing a legal word runs its command, on the registers as
they stand. This is about the model's own loading of a command (assumption 4). -/
def Obligations.PlacedWordRunsNext : Prop :=
  ∀ (s : State) (w : Nat) (i : Instr), decodeTableWord 32 w = some i →
    step (s.withFetchWord 32 w) =
        exec i { s with
          busy := true, done := false, err := false, errcode := 0#4,
          latch := some ⟨BitVec.ofNat 32 w, s.regs, 1⟩ } ∧
      (s.withFetchWord 32 w).operands = s.regs

/-- R49: a word that is not legal is accepted like any, and completes with ILLEGAL, writing no register and
leaving Z unchanged. Illegal are the unassigned opcodes, a set RSV bit, a field outside its class, and a set M
bit on a command that is no field command. -/
def Obligations.IllegalWordsCompleteWithIllegal : Prop :=
  (∀ (s : State) (w : Word), s.busy = false → legal w = false →
    (writeWord s 0x010 w).busy = true ∧
      (writeWord s 0x010 w).latch.map (·.word) = some w) ∧
  (∀ (s : State) (l : Latch), s.completesNow → s.latch = some l → legal l.word = false →
    ∃ t, step s = .next t ∧ Errored { s with turns := s.turns.tail } t 1#4) ∧
  ∀ (w : Word) (op d a b : Nat), (opField w).toNat = op → (dField w).toNat = d → (aField w).toNat = a →
    (bField w).toNat = b →
      (0x06 ≤ op ∧ op ≤ 0x0F ∨ 0x14 ≤ op → legal w = false) ∧ (rsvField w ≠ 0#11 → legal w = false) ∧
        (op = 0x00 ∨ 0x10 ≤ op → mField w ≠ 0#1 → legal w = false) ∧
        (op = 0x00 → d ≠ 0 ∨ a ≠ 0 ∨ b ≠ 0 → legal w = false) ∧
        (0x01 ≤ op ∧ op ≤ 0x03 → 8 ≤ d ∨ 8 ≤ a ∨ 8 ≤ b → legal w = false) ∧
        (op = 0x04 ∨ op = 0x05 → 8 ≤ d ∨ 8 ≤ a ∨ b ≠ 0 → legal w = false) ∧
        (op = 0x10 → 4 ≤ d ∨ 4 ≤ a ∨ 4 ≤ b → legal w = false) ∧
        (op = 0x11 → 4 ≤ d ∨ 4 ≤ a ∨ b ≠ 0 → legal w = false) ∧
        (op = 0x12 → 4 ≤ d ∨ 8 ≤ a ∨ 4 ≤ b → legal w = false) ∧
        (op = 0x13 → d ≠ 0 ∨ 4 ≤ a ∨ b ≠ 0 → legal w = false)

/-- A command whose operand fields lie outside their classes has an illegal word (R46, R49), and running it
completes with ILLEGAL too, whatever its operands hold. The decoder never yields one. -/
def Obligations.IllFormedCommandsCompleteWithIllegal : Prop :=
  ∀ (s : State) (i : Instr), i.wellFormed = false →
    legal (encode i) = false ∧ ∃ t, exec i s = .next t ∧ Errored s t 1#4

/-- R26, R101: while a command in flight has more than one cycle to run, an engine turn counts one cycle and
changes nothing else; an idle block's engine turn changes nothing (R93). -/
def Obligations.EngineCountsCycles : Prop :=
  ∀ s : State, s.engineNext →
    (∀ l, s.busy = true → s.latch = some l → 1 < l.remaining →
      step s = .next { s with
        turns := s.turns.tail, latch := some { l with remaining := l.remaining - 1 } }) ∧
      (s.busy = false → step s = .next { s with turns := s.turns.tail })

/-- R85: a host access and the completion of the command in flight may come in either order. A word written
to CMD after the completion is accepted; before it, it is dropped with OVR and the command in flight
completes. A soft reset before or after the completion leaves the reset registers, an empty latch and no
DONE. The order is the plain data of the pending moves (assumption 1). -/
def Obligations.CompletionRacesTakeEitherOrder : Prop :=
  ∀ (s : State) (l : Latch) (rest : List Turn), s.busy = true → s.latch = some l → l.remaining ≤ 1 →
    (∀ w : Word,
      (s.turns = .engine :: hostWrite 0x010 w :: rest →
        ∃ t, Host.Core.run Sys2Proof.core 2 s = .next t ∧ t.busy = true ∧ t.done = false ∧
          t.ovr = s.ovr ∧ t.latch = some ⟨w, t.regs, latency s.draws w t.regs⟩ ∧ t.turns = rest) ∧
      (s.turns = hostWrite 0x010 w :: .engine :: rest →
        ∃ t, Host.Core.run Sys2Proof.core 2 s = .next t ∧ t.busy = false ∧ t.done = true ∧
          t.ovr = true ∧ t.latch = none ∧ t.draws = s.draws ∧ t.turns = rest)) ∧
    ∀ v : Word, v.getLsbD 1 = true →
      (s.turns = .engine :: hostWrite 0x008 v :: rest ∨ s.turns = hostWrite 0x008 v :: .engine :: rest) →
        Host.Core.run Sys2Proof.core 2 s =
          .next { State.reset with turns := rest, response := .accepted, draws := s.draws }

/-- R76: every accepted command completes unless a reset comes first. With no reset among the pending moves
and every pending access within the window, the block completes its command within as many steps as there
are moves and MAX_LATENCY cycles. -/
def Obligations.EveryAcceptedCommandCompletes : Prop :=
  ∀ s : State, s.Inv → s.busy = true → Turn.hardReset ∉ s.turns →
    (∀ a, Turn.access a ∈ s.turns → a.off < 0x1000) →
    (∀ v, hostWrite 0x008 v ∈ s.turns → v.getLsbD 1 = false) →
      ∃ k t, k ≤ s.turns.length + Config.maxLatency ∧
        Host.Core.run Sys2Proof.core k s = .next t ∧ t.busy = false ∧ t.done = true

/-- The invariant (R22, R26, R73, R79, R101) is kept by every step, from every state that meets it. -/
def Obligations.StepKeepsInvariant : Prop :=
  ∀ s t : State, s.Inv → step s = .next t → t.Inv

/-- The state after reset meets the invariant. -/
def Obligations.ResetMeetsInvariant : Prop := State.reset.Inv

/-- The block never stops on any error: a step always gives a next state, but for an access at an offset
outside the window, which is not the block's and faults (R81, R28). -/
def Obligations.StepNeverStops : Prop :=
  ∀ s : State,
    ((∀ a rest, s.turns = .access a :: rest → a.off < 0x1000) → ∃ t, step s = .next t) ∧
      ∀ a rest, s.turns = .access a :: rest → 0x1000 ≤ a.off → step s = .fault .outsideWindow

/-- R36: the register files change only at a completion, at a reset, or by a host write of a register word
while the block is idle. -/
def Obligations.RegistersChangeOnlyAtTheseEvents : Prop :=
  ∀ s t : State, step s = .next t → t.regs ≠ s.regs →
    s.completesNow ∧ t.busy = false ∧ t.done = true ∨ s.resetsNow ∨
      s.busy = false ∧ ∃ off v, isRegisterWord off ∧ s.hostWrites off v

/-- R22: BUSY rises only at the acceptance of a word written to CMD, and falls only at a completion, which
sets DONE, or at a reset. -/
def Obligations.BusyRisesAndFallsOnlyAtTheseEvents : Prop :=
  ∀ s t : State, step s = .next t →
    (s.busy = false → t.busy = true → ∃ w, s.hostWrites 0x010 w) ∧
      (s.busy = true → t.busy = false → s.completesNow ∧ t.done = true ∨ s.resetsNow)

/-- R22, R97: OVR rises only when the host writes a register word or CMD while the block is busy, and falls
only when the host writes 1 to STATUS bit 3, or at a reset. -/
def Obligations.OvrRisesAndFallsOnlyAtTheseEvents : Prop :=
  ∀ s t : State, step s = .next t →
    (s.ovr = false → t.ovr = true →
      s.busy = true ∧ ∃ off v, s.hostWrites off v ∧ (isRegisterWord off ∨ off = 0x010)) ∧
      (s.ovr = true → t.ovr = false →
        s.resetsNow ∨ ∃ v, s.hostWrites 0x00C v ∧ v.getLsbD 3 = true)

/-- R24: Z changes only at the completion, without error, of a command other than NOP, or at a reset. -/
def Obligations.ZeroFlagChangesOnlyAtTheseEvents : Prop :=
  ∀ s t : State, s.Inv → step s = .next t → t.z ≠ s.z →
    s.completesNow ∧ t.err = false ∧ (∃ l i, s.latch = some l ∧ decode l.word = .instr i ∧ i ≠ .nop) ∨
      s.resetsNow

/-- R81: a command that completes with an error writes no register and leaves Z unchanged; DONE = ERR = 1,
ERRCODE is one of the four codes, and the block is idle and takes the next command. -/
def Obligations.ErrorsWriteNothing : Prop :=
  ∀ (s t : State) (i : Instr), s.err = false → exec i s = .next t → t.err = true →
    (∃ c : BitVec 4, (c = 1#4 ∨ c = 2#4 ∨ c = 3#4 ∨ c = 4#4) ∧ Errored s t c) ∧
      ∀ w, (writeWord t 0x010 w).latch.map (·.word) = some w

/-- R75, the frame of every command: when it completes, the destination register and STATUS are all that the
host can see changed. Every other word of the window reads as before, a command of no destination changes
no register, and IE, OVR, the pending moves and the bus answer stay. -/
def Obligations.CommandFrame : Prop :=
  ∀ (s t : State) (i : Instr), exec i s = .next t →
    (∀ off, off % 4 = 0 → off ≠ 0x00C → ¬ isDestinationWord i off → readWord t off = readWord s off) ∧
      (∀ a, i = .pchk a → t.regs = s.regs) ∧ (i = .nop → t.regs = s.regs) ∧
      t.ie = s.ie ∧ t.ovr = s.ovr ∧ t.busy = false ∧ t.done = true ∧ t.latch = none ∧
      t.turns = s.turns ∧ t.response = s.response ∧ t.draws = s.draws

/-! ## The commands -/

/-- R78: NOP writes no register, leaves Z, and completes, raising irq when IE = 1; its only word is 0. Its
acceptance clears a stale ERR and ERRCODE, and with Z and OVR clear STATUS then completes as 2. -/
def Obligations.NopCompletes : Prop :=
  encode .nop = 0#32 ∧ (∀ w, opField w = 0#8 → w ≠ 0#32 → legal w = false) ∧
    (∀ s : State, ∃ t, exec .nop s = .next t ∧ WroteNothing s t s.z ∧ t.irq = s.ie) ∧
    ∀ s : State, s.busy = false → ∃ u t, writeWord s 0x010 0#32 = u ∧ u.busy = true ∧ u.err = false ∧
      u.errcode = 0#4 ∧ exec .nop u = .next t ∧ t.done = true ∧
      (s.z = false → s.ovr = false → readWord t 0x00C = 2#32)

/-- R56: FADD. -/
def Obligations.FaddAddsModulo : Prop :=
  ∀ (s : State) (d a b : RegField) (m : Modulus), (Instr.fadd d a b m).wellFormed = true →
    encode (.fadd d a b m) &&& 0xFFE888FF#32 = 0x00000001#32 ∧
      ((s.operands.getF a).toNat < m.value → (s.operands.getF b).toNat < m.value →
        ∃ t, exec (.fadd d a b m) s = .next t ∧
          WroteField s t d (((s.operands.getF a).toNat + (s.operands.getF b).toNat) % m.value)) ∧
      (m.value ≤ (s.operands.getF a).toNat ∨ m.value ≤ (s.operands.getF b).toNat →
        ∃ t, exec (.fadd d a b m) s = .next t ∧ Errored s t 2#4)

/-- R57: FSUB; the exact difference, brought into [0, m). -/
def Obligations.FsubSubtractsModulo : Prop :=
  ∀ (s : State) (d a b : RegField) (m : Modulus), (Instr.fsub d a b m).wellFormed = true →
    encode (.fsub d a b m) &&& 0xFFE888FF#32 = 0x00000002#32 ∧
      ((s.operands.getF a).toNat < m.value → (s.operands.getF b).toNat < m.value →
        ∃ t r, exec (.fsub d a b m) s = .next t ∧ WroteField s t d r ∧ r < m.value ∧
          (m.value : Int) ∣ ((s.operands.getF a).toNat : Int) - (s.operands.getF b).toNat - r ∧
          ((s.operands.getF a).toNat < (s.operands.getF b).toNat →
            r = (s.operands.getF a).toNat + m.value - (s.operands.getF b).toNat)) ∧
      (m.value ≤ (s.operands.getF a).toNat ∨ m.value ≤ (s.operands.getF b).toNat →
        ∃ t, exec (.fsub d a b m) s = .next t ∧ Errored s t 2#4)

/-- R58: FMUL; the exact product, then reduced. A product of nonzero reduced operands is never 0, since m
is prime. -/
def Obligations.FmulMultipliesModulo : Prop :=
  ∀ (s : State) (d a b : RegField) (m : Modulus), (Instr.fmul d a b m).wellFormed = true →
    encode (.fmul d a b m) &&& 0xFFE888FF#32 = 0x00000003#32 ∧
      ((s.operands.getF a).toNat < m.value → (s.operands.getF b).toNat < m.value →
        ∃ t, exec (.fmul d a b m) s = .next t ∧
          WroteField s t d ((s.operands.getF a).toNat * (s.operands.getF b).toNat % m.value) ∧
          (t.z = true ↔ s.operands.getF a = 0#256 ∨ s.operands.getF b = 0#256)) ∧
      (m.value ≤ (s.operands.getF a).toNat ∨ m.value ≤ (s.operands.getF b).toNat →
        ∃ t, exec (.fmul d a b m) s = .next t ∧ Errored s t 2#4)

/-- R59: FINV writes the unique inverse in [1, m-1], Z <- 0, the same for either algorithm; RANGE for an
unreduced operand, checked first; DOMAIN for 0. -/
def Obligations.FinvInverts : Prop :=
  ∀ (s : State) (d a : RegField) (m : Modulus), (Instr.finv d a m).wellFormed = true →
    encode (.finv d a m) &&& 0xFFEF88FF#32 = 0x00000004#32 ∧
      ((s.operands.getF a).toNat < m.value → s.operands.getF a ≠ 0#256 →
        ∃ t r, exec (.finv d a m) s = .next t ∧ WroteField s t d r ∧ 1 ≤ r ∧ r < m.value ∧
          (s.operands.getF a).toNat * r % m.value = 1 ∧ t.z = false ∧
          (∀ r', 1 ≤ r' → r' < m.value → (s.operands.getF a).toNat * r' % m.value = 1 → r' = r) ∧
          ∀ alg, inverseBy alg m.value (s.operands.getF a).toNat = r) ∧
      (m.value ≤ (s.operands.getF a).toNat → ∃ t, exec (.finv d a m) s = .next t ∧ Errored s t 2#4) ∧
      (s.operands.getF a = 0#256 → ∃ t, exec (.finv d a m) s = .next t ∧ Errored s t 4#4)

/-- R59, R20: the two inversion algorithms give the same number for every operand in [1, m-1], so no result
depends on INV_ALG. -/
def Obligations.InversionAlgorithmsAgree : Prop :=
  ∀ (m : Modulus) (a : Nat) (alg : Config.InvAlg), 1 ≤ a → a < m.value →
    inverseBy alg m.value a = invMod m.value a ∧ a * inverseBy alg m.value a % m.value = 1

/-- R60: FRED reduces any 256-bit value and raises no error; one subtraction is enough. -/
def Obligations.FredReduces : Prop :=
  ∀ (s : State) (d a : RegField) (m : Modulus), (Instr.fred d a m).wellFormed = true →
    encode (.fred d a m) &&& 0xFFEF88FF#32 = 0x00000005#32 ∧
      ∃ t r, exec (.fred d a m) s = .next t ∧ WroteField s t d r ∧
        r = (s.operands.getF a).toNat % m.value ∧
        (r = (s.operands.getF a).toNat ∨ r + m.value = (s.operands.getF a).toNat)

/-- R54: every field command that completes without error leaves a reduced result in its destination, and
Z = 1 exactly when it is 0. -/
def Obligations.FieldResultsAreReduced : Prop :=
  ∀ (s t : State) (i : Instr) (d : RegField) (m : Modulus), i.wellFormed = true →
    ((∃ a b, i = .fadd d a b m ∨ i = .fsub d a b m ∨ i = .fmul d a b m) ∨
      ∃ a, i = .finv d a m ∨ i = .fred d a m) →
    s.err = false → exec i s = .next t → t.err = false →
      (t.regs.getF d).toNat < m.value ∧ (t.z = true ↔ t.regs.getF d = 0#256)

/-- R61: how a point operand reads. -/
def Obligations.PointOperandChecks : Prop :=
  ∀ (S : RegFiles) (i : RegField) (r : PointReg), S.getP i = r →
    (r.inf = true → pointOperand S i = .ok .infinity) ∧
      (r.inf = false → Config.curveP ≤ r.x.toNat ∨ Config.curveP ≤ r.y.toNat →
        pointOperand S i = .error .range) ∧
      (r.inf = false → r.x.toNat < Config.curveP → r.y.toNat < Config.curveP →
        (((r.y.toNat * r.y.toNat : Int) - (r.x.toNat * r.x.toNat * r.x.toNat + 7)) % Config.curveP ≠ 0 →
          pointOperand S i = .error .curve) ∧
        (((r.y.toNat * r.y.toNat : Int) - (r.x.toNat * r.x.toNat * r.x.toNat + 7)) % Config.curveP = 0 →
          pointOperand S i = .ok (.affine r.x.toNat r.y.toNat)))

/-- R67: PCHK writes no register; Z <- (INF = 1) for an operand that passes, else the operand's error. No
finite point that passes has x = 0, so a register with INF = 0, X = Y = 0 fails with CURVE. -/
def Obligations.PchkChecksAPoint : Prop :=
  ∀ (s : State) (a : RegField), (Instr.pchk a).wellFormed = true →
    encode (.pchk a) &&& 0xFFFFCFFF#32 = 0x00000013#32 ∧
      (∀ P, pointOperand s.operands a = .ok P →
        ∃ t, exec (.pchk a) s = .next t ∧ WroteNothing s t (s.operands.getP a).inf) ∧
      (∀ c, pointOperand s.operands a = .error c →
        ∃ t, exec (.pchk a) s = .next t ∧ Errored s t c.code ∧ (c = .range ∨ c = .curve)) ∧
      (∀ y, pointOperand s.operands a ≠ .ok (.affine 0 y)) ∧
      (s.operands.getP a = ⟨0#256, 0#256, false⟩ →
        ∃ t, exec (.pchk a) s = .next t ∧ Errored s t 3#4)

/-- R62: the cases of the group law on point values, reduced pairs on the curve or not, in the order in which
the rule tries them; the slopes as congruences modulo p. The last case is the DOMAIN line that R63 proves
dead for operands that pass. -/
def Obligations.GroupLawCases : Prop :=
  (∀ Q, pointAdd .infinity Q = .ok Q) ∧ (∀ P, pointAdd P .infinity = .ok P) ∧
    ∀ x1 y1 x2 y2 : Nat, x1 < Config.curveP → y1 < Config.curveP → x2 < Config.curveP →
      y2 < Config.curveP →
      (x1 = x2 → (y1 + y2) % Config.curveP = 0 →
        pointAdd (.affine x1 y1) (.affine x2 y2) = .ok .infinity) ∧
      (x1 ≠ x2 ∨ y1 = y2 ∧ (y1 + y2) % Config.curveP ≠ 0 →
        ∃ lam x3 y3 : Nat, pointAdd (.affine x1 y1) (.affine x2 y2) = .ok (.affine x3 y3) ∧
          x3 < Config.curveP ∧ y3 < Config.curveP ∧
          (Config.curveP : Int) ∣ (lam : Int) * lam - x1 - x2 - x3 ∧
          (Config.curveP : Int) ∣ (lam : Int) * (x1 - x3) - y1 - y3 ∧
          (x1 = x2 → (Config.curveP : Int) ∣ (lam : Int) * (2 * y1) - 3 * x1 * x1) ∧
          (x1 ≠ x2 → (Config.curveP : Int) ∣ (lam : Int) * (x2 - x1) - ((y2 : Int) - y1))) ∧
      (x1 = x2 → y1 ≠ y2 → (y1 + y2) % Config.curveP ≠ 0 →
        pointAdd (.affine x1 y1) (.affine x2 y2) = .error .domain)

/-- R63: for operands that pass `pvalid` the group law never raises DOMAIN; no point of the curve has y = 0,
and two of one x have equal or opposite y. -/
def Obligations.GroupLawNeverRaisesDomain : Prop :=
  (∀ P Q : Point, P.Valid → Q.Valid → ∃ R, pointAdd P Q = .ok R) ∧
    (∀ x y : Nat, (Point.affine x y).Valid → y ≠ 0 ∧ 2 * y % Config.curveP ≠ 0) ∧
    (∀ x y1 y2 : Nat, (Point.affine x y1).Valid → (Point.affine x y2).Valid →
      y1 = y2 ∨ (y1 + y2) % Config.curveP = 0) ∧
    ∀ (S : RegFiles) (i : RegField) (P : Point), pointOperand S i = .ok P → P.Valid

/-- R64, all but associativity: a sum is O or an on-curve pair below p; addition is commutative; O is its
identity; P + neg(P) = O. -/
def Obligations.GroupLawClosedAndCommutative : Prop :=
  ∀ P Q R : Point, P.Valid → Q.Valid → pointAdd P Q = .ok R →
    R.Valid ∧ pointAdd Q P = .ok R ∧ pointAdd P .infinity = .ok P ∧ pointAdd .infinity P = .ok P ∧
      P.neg.Valid ∧ pointAdd P P.neg = .ok .infinity

/-- R64: addition is associative. -/
def Obligations.GroupLawAssociative : Prop :=
  ∀ P Q R A B : Point, P.Valid → Q.Valid → R.Valid → pointAdd P Q = .ok A → pointAdd Q R = .ok B →
    ∃ T, pointAdd A R = .ok T ∧ pointAdd P B = .ok T

/-- R65: PADD writes the sum of two operands that pass, Z <- (the sum is O); the error of A, else of B,
RANGE or CURVE and never DOMAIN. -/
def Obligations.PaddAddsPoints : Prop :=
  ∀ (s : State) (d a b : RegField), (Instr.padd d a b).wellFormed = true →
    encode (.padd d a b) &&& 0xFFFCCCFF#32 = 0x00000010#32 ∧
      (∀ Pa Pb, pointOperand s.operands a = .ok Pa → pointOperand s.operands b = .ok Pb →
        ∃ R t, pointAdd Pa Pb = .ok R ∧ exec (.padd d a b) s = .next t ∧ WrotePoint s t d R) ∧
      (∀ c, pointOperand s.operands a = .error c →
        ∃ t, exec (.padd d a b) s = .next t ∧ Errored s t c.code ∧ (c = .range ∨ c = .curve)) ∧
      (∀ Pa c, pointOperand s.operands a = .ok Pa → pointOperand s.operands b = .error c →
        ∃ t, exec (.padd d a b) s = .next t ∧ Errored s t c.code ∧ (c = .range ∨ c = .curve))

/-- R66: PDBL writes P[a] + P[a], or raises the operand's error, RANGE or CURVE; PADD of P[a] and P[a]
does the same. -/
def Obligations.PdblDoublesAPoint : Prop :=
  ∀ (s : State) (d a : RegField), (Instr.pdbl d a).wellFormed = true →
    encode (.pdbl d a) &&& 0xFFFFCCFF#32 = 0x00000011#32 ∧
      exec (.pdbl d a) s = exec (.padd d a a) s ∧
      (∀ Pa, pointOperand s.operands a = .ok Pa →
        ∃ R t, pointAdd Pa Pa = .ok R ∧ exec (.pdbl d a) s = .next t ∧ WrotePoint s t d R ∧
          (R = .infinity ↔ Pa = .infinity)) ∧
      (∀ c, pointOperand s.operands a = .error c →
        ∃ t, exec (.pdbl d a) s = .next t ∧ Errored s t c.code ∧ (c = .range ∨ c = .curve))

/-- R80: the order in which errors are reported. ILLEGAL comes before any operand is read. The first point
operand of a point command reports RANGE before CURVE, whatever a second operand holds; PADD's second
is checked only when the first passed, in the same order. FINV reports RANGE before DOMAIN, and DOMAIN
only for a reduced operand. -/
def Obligations.ErrorPriority : Prop :=
  (∀ (s : State) (w : Word), legal w = false → ∃ t, runWord w s = .next t ∧ Errored s t 1#4) ∧
    (∀ (s : State) (i : Instr) (d a b : RegField) (r : PointReg), i.wellFormed = true →
      (i = .padd d a b ∨ i = .pdbl d a ∨ i = .pmul d b a ∨ i = .pchk a) →
      s.operands.getP a = r → r.inf = false →
        (Config.curveP ≤ r.x.toNat ∨ Config.curveP ≤ r.y.toNat →
          ∃ t, exec i s = .next t ∧ Errored s t 2#4) ∧
        (r.x.toNat < Config.curveP → r.y.toNat < Config.curveP →
          onCurve r.x.toNat r.y.toNat = false →
            ∃ t, exec i s = .next t ∧ Errored s t 3#4)) ∧
    (∀ (s : State) (d a b : RegField) (P : Point) (r : PointReg),
      (Instr.padd d a b).wellFormed = true → pointOperand s.operands a = .ok P →
      s.operands.getP b = r → r.inf = false →
        (Config.curveP ≤ r.x.toNat ∨ Config.curveP ≤ r.y.toNat →
          ∃ t, exec (.padd d a b) s = .next t ∧ Errored s t 2#4) ∧
        (r.x.toNat < Config.curveP → r.y.toNat < Config.curveP →
          onCurve r.x.toNat r.y.toNat = false →
            ∃ t, exec (.padd d a b) s = .next t ∧ Errored s t 3#4)) ∧
    ∀ (s : State) (d a : RegField) (m : Modulus), (Instr.finv d a m).wellFormed = true →
      (m.value ≤ (s.operands.getF a).toNat →
        ∃ t, exec (.finv d a m) s = .next t ∧ Errored s t 2#4) ∧
      (s.operands.getF a = 0#256 → ∃ t, exec (.finv d a m) s = .next t ∧ Errored s t 4#4)

/-- R71: PMUL writes mul(F[a], P[b]) for any scalar and a point that passes, Z <- (the product is O), else
the point's error; DOMAIN never. The scalars 0, n, 1, n - 1 and those above n, as the rule lists them. -/
def Obligations.PmulMultipliesPoints : Prop :=
  ∀ (s : State) (d a b : RegField), (Instr.pmul d a b).wellFormed = true →
    encode (.pmul d a b) &&& 0xFFFC8CFF#32 = 0x00000012#32 ∧
      (∀ Pb, pointOperand s.operands b = .ok Pb →
        ∃ R t, scalarMul (s.operands.getF a).toNat Pb = .ok R ∧ R.Valid ∧
          exec (.pmul d a b) s = .next t ∧ WrotePoint s t d R ∧
          ((s.operands.getF a).toNat % Config.curveN = 0 ∨ Pb = .infinity → R = .infinity) ∧
          ((s.operands.getF a).toNat = 1 → R = Pb) ∧
          ((s.operands.getF a).toNat = Config.curveN - 1 → R = Pb.neg) ∧
          (Config.curveN ≤ (s.operands.getF a).toNat →
            scalarMul ((s.operands.getF a).toNat - Config.curveN) Pb = .ok R)) ∧
      (∀ c, pointOperand s.operands b = .error c →
        ∃ t, exec (.pmul d a b) s = .next t ∧ Errored s t c.code ∧ (c = .range ∨ c = .curve))

/-- R68: for a point that passed `pvalid`, mul(k, P) is the (k mod n)-fold sum P + ... + P; so it is O when
k mod n = 0 or P = O, and P when k = 1; and it depends on k only modulo n. -/
def Obligations.ScalarProductIsTheFoldedSum : Prop :=
  ∀ (k : Nat) (P : Point), P.Valid →
    scalarMul k P = multiple P (k % Config.curveN) ∧
      (k % Config.curveN = 0 ∨ P = .infinity → scalarMul k P = .ok .infinity) ∧
      scalarMul 1 P = .ok P ∧ scalarMul (k % Config.curveN) P = scalarMul k P

/-- R69, R70: every algorithm of SMUL_ALG gives the point of R68, for every scalar, every point that passed
`pvalid` and every digit width of the fixed window; none raises an error. The free digit width, and the
table of the fixed window that starts at 0·P, are the model's (assumption 9). -/
def Obligations.ScalarAlgorithmsAgree : Prop :=
  ∀ (w k : Nat) (P : Point) (alg : Config.SmulAlg), 0 < w → P.Valid →
    ∃ R, scalarMul k P = .ok R ∧ R.Valid ∧ scalarMulBy w alg k P = .ok R

/-- The group has order n (R68, R71: "since the group has order n"): there are exactly n valid points, so
n - 1 times a point is its negative, and the n-fold sum of any point is O. The value of n is general
knowledge (assumption 10). -/
def Obligations.GroupOrderIsN : Prop :=
  Nat.card { P : Point // P.Valid } = Config.curveN ∧
    ∀ P : Point, P.Valid →
      scalarMul (Config.curveN - 1) P = .ok P.neg ∧ multiple P Config.curveN = .ok .infinity
end

