-- ==== Sys2Proof/Laws/Arith.lean ====
section
/-! SUPPORT. The arithmetic of R10: `modInt` is the residue in [0, m), and the inverter's power is the
power. -/

namespace Sys2Proof.Machine

/-- The defining property of t mod m (R10), as one equation on integers. -/
theorem modInt_cast (t : Int) {m : Nat} (hm : 0 < m) : (modInt t m : Int) = t % m := by
  have : (0 : Int) ≤ t % m := Int.emod_nonneg _ (by omega)
  simp [modInt, this]

theorem modInt_lt (t : Int) {m : Nat} (hm : 0 < m) : modInt t m < m := by
  have h := Int.emod_lt_of_pos t (show (0 : Int) < m by omega)
  rw [← modInt_cast t hm] at h
  exact_mod_cast h

theorem modInt_dvd (t : Int) {m : Nat} (hm : 0 < m) : (m : Int) ∣ t - modInt t m := by
  rw [modInt_cast t hm]
  exact Int.dvd_self_sub_emod

/-- The residue of R10 is unique. -/
theorem modInt_unique {t : Int} {m r : Nat} (hr : r < m) (h : (m : Int) ∣ t - r) :
    modInt t m = r := by
  have hm : 0 < m := by omega
  have e : t % m = (r : Int) % m := (Int.emod_emod_of_dvd t dvd_rfl).symm.trans
    (by rw [Int.emod_emod_of_dvd _ dvd_rfl]; exact Int.emod_eq_emod_iff_emod_sub_eq_zero.2
          (Int.emod_eq_zero_of_dvd h))
  rw [← modInt_cast t hm] at e
  have : (r : Int) % m = r := Int.emod_eq_of_lt (by omega) (by omega)
  omega

theorem modInt_natCast (n m : Nat) : modInt (n : Int) m = n % m := by
  unfold modInt
  norm_cast

/-- In the ring of residues, `modInt` is the cast. -/
theorem cast_modInt (t : Int) {m : Nat} (hm : 0 < m) : ((modInt t m : Nat) : ZMod m) = (t : ZMod m) := by
  have h := (ZMod.intCast_eq_intCast_iff_dvd_sub (modInt t m : Int) t m).2 (modInt_dvd t hm)
  exact_mod_cast h

theorem powLoop_eq (m a e : Nat) (i acc : Nat) :
    powLoop m a e i acc % m = acc ^ 2 ^ i * a ^ (e % 2 ^ i) % m := by
  induction i generalizing acc with
  | zero => simp [powLoop, Nat.mod_one]
  | succ i ih =>
    rw [powLoop, ih]
    have hbit : e % 2 ^ (i + 1) = e % 2 ^ i + 2 ^ i * (e.testBit i).toNat := by
      rw [Nat.pow_succ, Nat.mod_mul, Nat.testBit_eq_decide_div_mod_eq]
      rcases Nat.mod_two_eq_zero_or_one (e / 2 ^ i) with h | h <;> simp [h]
    rw [hbit, pow_succ 2 i, mul_comm (2 ^ i) 2, pow_mul acc 2, pow_add]
    cases e.testBit i
    · simp only [Bool.toNat_false, mul_zero, pow_zero, mul_one, Bool.false_eq_true, if_false]
      rw [Nat.mul_mod, Nat.pow_mod, Nat.mod_mod, ← Nat.pow_mod, ← Nat.mul_mod, sq]
    · simp only [Bool.toNat_true, mul_one, if_true]
      have : (acc * acc % m * a % m) ^ 2 ^ i % m = ((acc ^ 2) ^ 2 ^ i * a ^ 2 ^ i) % m := by
        rw [← Nat.pow_mod, ← mul_pow, Nat.pow_mod, Nat.mod_mul_mod, ← Nat.pow_mod, sq]
      rw [Nat.mul_mod, this, ← Nat.mul_mod]
      congr 1
      ring

theorem powLoop_lt {m : Nat} (hm : 0 < m) (a e : Nat) (i acc : Nat) (h : acc < m) :
    powLoop m a e i acc < m := by
  induction i generalizing acc with
  | zero => exact h
  | succ i ih =>
    rw [powLoop]
    apply ih
    split <;> exact Nat.mod_lt _ hm

/-- Over enough bits the loop computes the power. -/
theorem powLoop_one {m : Nat} (hm : 0 < m) (a : Nat) {e i : Nat} (he : e < 2 ^ i) :
    powLoop m a e i (1 % m) = a ^ e % m := by
  have h := powLoop_eq m a e i (1 % m)
  rw [Nat.mod_eq_of_lt he, Nat.mul_mod, Nat.pow_mod, Nat.mod_mod, ← Nat.pow_mod, one_pow,
    ← Nat.mul_mod, one_mul] at h
  rwa [Nat.mod_eq_of_lt (powLoop_lt hm a e i _ (Nat.mod_lt _ hm))] at h

/-- `powMod` is the power (R20: a^(m-2) mod m). -/
theorem powMod_eq {m : Nat} (hm : 0 < m) (a : Nat) {e : Nat} (he : e < 2 ^ 256) :
    powMod m a e = a ^ e % m := powLoop_one hm a he

theorem cast_powMod {m : Nat} (hm : 0 < m) (a : Nat) {e : Nat} (he : e < 2 ^ 256) :
    ((powMod m a e : Nat) : ZMod m) = (a : ZMod m) ^ e := by
  rw [powMod_eq hm a he, ZMod.natCast_mod]
  push_cast
  rfl

theorem powMod_lt {m : Nat} (hm : 0 < m) (a e : Nat) : powMod m a e < m :=
  powLoop_lt hm a e 256 _ (Nat.mod_lt _ hm)

theorem invMod_lt {m : Nat} (hm : 0 < m) (a : Nat) : invMod m a < m := powMod_lt hm a _

theorem Modulus_value_pos (m : Modulus) : 0 < m.value := by cases m <;> decide

/-- Both moduli are below 2^256, and twice either is above it (R60). -/
theorem Modulus_value_bounds (m : Modulus) : m.value < 2 ^ 256 ∧ 2 ^ 256 < 2 * m.value := by
  cases m <;> decide

/-- R6: the hexadecimal value of p is 2^256 - 2^32 - 977. -/
theorem curveP_eq : Config.curveP = 2 ^ 256 - 2 ^ 32 - 977 := by decide

end Sys2Proof.Machine
end

