-- ==== Sys2Proof/Laws/Primes.lean ====
section
/-! SUPPORT. p and n are prime (R52: "Both are prime"), each by a chain of Lucas certificates: a primitive root
and the prime factors of q - 1. Every power is one evaluation of the model's own `powMod`. -/

-- Kernel evaluations one after another: waiting side by side, they would hold a thread each.
set_option Elab.async false

namespace Sys2Proof.Machine

/-- A Lucas certificate: `a` has order q - 1 modulo q, since it does not reach 1 at (q-1)/f for any prime
factor f of q - 1. -/
theorem prime_of_certificate (q a : Nat) (fs : List Nat) (hq : 1 < q ∧ q < 2 ^ 256)
    (hprod : fs.prod = q - 1) (hprime : ∀ f ∈ fs, f.Prime) (hone : powMod q a (q - 1) = 1)
    (hne : ∀ f ∈ fs, powMod q a ((q - 1) / f) ≠ 1) : q.Prime := by
  obtain ⟨h1, h2⟩ := hq
  have : Fact (1 < q) := ⟨h1⟩
  refine lucas_primality q (a : ZMod q) ?_ ?_
  · rw [← cast_powMod (by omega) a (by omega), hone, Nat.cast_one]
  · intro f hf hdvd h
    rw [← hprod] at hdvd
    obtain ⟨g, hg, hfg⟩ := (Prime.dvd_prod_iff hf.prime).1 hdvd
    obtain rfl := (Nat.prime_dvd_prime_iff_eq hf (hprime g hg)).1 hfg
    have hlt : (q - 1) / f < 2 ^ 256 := lt_of_le_of_lt (Nat.div_le_self _ _) (by omega)
    rw [← cast_powMod (by omega) a hlt] at h
    have hm : powMod q a ((q - 1) / f) = 1 := by
      have h' := congrArg ZMod.val h
      rwa [ZMod.val_natCast, ZMod.val_one, Nat.mod_eq_of_lt (powMod_lt (by omega) _ _)] at h'
    exact hne f hg hm

theorem prime_13331831 : Nat.Prime 13331831 := by
  refine prime_of_certificate _ 13
    [2, 5, 971, 1373]
    (by decide) (by decide +kernel) ?_ (by decide +kernel) (by decide +kernel)
  simp only [List.forall_mem_cons, List.not_mem_nil, false_imp_iff, implies_true, and_true]
  exact ⟨by norm_num, by norm_num, by norm_num, by norm_num⟩

theorem prime_173378833005251801 : Nat.Prime 173378833005251801 := by
  refine prime_of_certificate _ 6
    [2, 2, 2, 5, 5, 2621, 24809, 13331831]
    (by decide) (by decide +kernel) ?_ (by decide +kernel) (by decide +kernel)
  simp only [List.forall_mem_cons, List.not_mem_nil, false_imp_iff, implies_true, and_true]
  exact ⟨by norm_num, by norm_num, by norm_num, by norm_num, by norm_num, by norm_num,
      by norm_num, prime_13331831⟩

theorem prime_22149492674086928081353 : Nat.Prime 22149492674086928081353 := by
  refine prime_of_certificate _ 5
    [2, 2, 2, 3, 5323, 173378833005251801]
    (by decide) (by decide +kernel) ?_ (by decide +kernel) (by decide +kernel)
  simp only [List.forall_mem_cons, List.not_mem_nil, false_imp_iff, implies_true, and_true]
  exact ⟨by norm_num, by norm_num, by norm_num, by norm_num, by norm_num, prime_173378833005251801⟩

theorem prime_132896956044521568488119 : Nat.Prime 132896956044521568488119 := by
  refine prime_of_certificate _ 6
    [2, 3, 22149492674086928081353]
    (by decide) (by decide +kernel) ?_ (by decide +kernel) (by decide +kernel)
  simp only [List.forall_mem_cons, List.not_mem_nil, false_imp_iff, implies_true, and_true]
  exact ⟨by norm_num, by norm_num, prime_22149492674086928081353⟩

theorem prime_7240687 : Nat.Prime 7240687 := by
  refine prime_of_certificate _ 3
    [2, 3, 1206781]
    (by decide) (by decide +kernel) ?_ (by decide +kernel) (by decide +kernel)
  simp only [List.forall_mem_cons, List.not_mem_nil, false_imp_iff, implies_true, and_true]
  exact ⟨by norm_num, by norm_num, by norm_num⟩

theorem prime_107590001 : Nat.Prime 107590001 := by
  refine prime_of_certificate _ 3
    [2, 2, 2, 2, 5, 5, 5, 5, 7, 29, 53]
    (by decide) (by decide +kernel) ?_ (by decide +kernel) (by decide +kernel)
  simp only [List.forall_mem_cons, List.not_mem_nil, false_imp_iff, implies_true, and_true]
  exact ⟨by norm_num, by norm_num, by norm_num, by norm_num, by norm_num, by norm_num,
      by norm_num, by norm_num, by norm_num, by norm_num, by norm_num⟩

theorem prime_255515944373312847190720520512484175977 : Nat.Prime 255515944373312847190720520512484175977 := by
  refine prime_of_certificate _ 3
    [2, 2, 2, 7, 7, 11, 1627, 2657, 4423, 41201, 96557, 7240687, 107590001]
    (by decide) (by decide +kernel) ?_ (by decide +kernel) (by decide +kernel)
  simp only [List.forall_mem_cons, List.not_mem_nil, false_imp_iff, implies_true, and_true]
  exact ⟨by norm_num, by norm_num, by norm_num, by norm_num, by norm_num, by norm_num,
      by norm_num, by norm_num, by norm_num, by norm_num, by norm_num, prime_7240687,
      prime_107590001⟩

theorem prime_205115282021455665897114700593932402728804164701536103180137503955397371 : Nat.Prime 205115282021455665897114700593932402728804164701536103180137503955397371 := by
  refine prime_of_certificate _ 10
    [2, 3, 5, 29, 29, 31, 7723, 132896956044521568488119, 255515944373312847190720520512484175977]
    (by decide) (by decide +kernel) ?_ (by decide +kernel) (by decide +kernel)
  simp only [List.forall_mem_cons, List.not_mem_nil, false_imp_iff, implies_true, and_true]
  exact ⟨by norm_num, by norm_num, by norm_num, by norm_num, by norm_num, by norm_num,
      by norm_num, prime_132896956044521568488119, prime_255515944373312847190720520512484175977⟩

/-- p is prime (R52). -/
theorem curveP_prime : Nat.Prime Config.curveP := by
  refine prime_of_certificate _ 3
    [2, 3, 7, 13441, 205115282021455665897114700593932402728804164701536103180137503955397371]
    (by decide) (by decide +kernel) ?_ (by decide +kernel) (by decide +kernel)
  simp only [List.forall_mem_cons, List.not_mem_nil, false_imp_iff, implies_true, and_true]
  exact ⟨by norm_num, by norm_num, by norm_num, by norm_num,
      prime_205115282021455665897114700593932402728804164701536103180137503955397371⟩

theorem prime_4681609 : Nat.Prime 4681609 := by
  refine prime_of_certificate _ 23
    [2, 2, 2, 3, 97, 2011]
    (by decide) (by decide +kernel) ?_ (by decide +kernel) (by decide +kernel)
  simp only [List.forall_mem_cons, List.not_mem_nil, false_imp_iff, implies_true, and_true]
  exact ⟨by norm_num, by norm_num, by norm_num, by norm_num, by norm_num, by norm_num⟩

theorem prime_107361793816595537 : Nat.Prime 107361793816595537 := by
  refine prime_of_certificate _ 3
    [2, 2, 2, 2, 16699, 85831, 4681609]
    (by decide) (by decide +kernel) ?_ (by decide +kernel) (by decide +kernel)
  simp only [List.forall_mem_cons, List.not_mem_nil, false_imp_iff, implies_true, and_true]
  exact ⟨by norm_num, by norm_num, by norm_num, by norm_num, by norm_num, by norm_num,
      prime_4681609⟩

theorem prime_44706919 : Nat.Prime 44706919 := by
  refine prime_of_certificate _ 6
    [2, 3, 797, 9349]
    (by decide) (by decide +kernel) ?_ (by decide +kernel) (by decide +kernel)
  simp only [List.forall_mem_cons, List.not_mem_nil, false_imp_iff, implies_true, and_true]
  exact ⟨by norm_num, by norm_num, by norm_num, by norm_num⟩

theorem prime_174723607534414371449 : Nat.Prime 174723607534414371449 := by
  refine prime_of_certificate _ 3
    [2, 2, 2, 17, 59, 4051, 120233, 44706919]
    (by decide) (by decide +kernel) ?_ (by decide +kernel) (by decide +kernel)
  simp only [List.forall_mem_cons, List.not_mem_nil, false_imp_iff, implies_true, and_true]
  exact ⟨by norm_num, by norm_num, by norm_num, by norm_num, by norm_num, by norm_num,
      by norm_num, prime_44706919⟩

theorem prime_545358713 : Nat.Prime 545358713 := by
  refine prime_of_certificate _ 5
    [2, 2, 2, 41, 59, 28181]
    (by decide) (by decide +kernel) ?_ (by decide +kernel) (by decide +kernel)
  simp only [List.forall_mem_cons, List.not_mem_nil, false_imp_iff, implies_true, and_true]
  exact ⟨by norm_num, by norm_num, by norm_num, by norm_num, by norm_num, by norm_num⟩

theorem prime_297159362677 : Nat.Prime 297159362677 := by
  refine prime_of_certificate _ 2
    [2, 2, 3, 3, 11, 461, 1627771]
    (by decide) (by decide +kernel) ?_ (by decide +kernel) (by decide +kernel)
  simp only [List.forall_mem_cons, List.not_mem_nil, false_imp_iff, implies_true, and_true]
  exact ⟨by norm_num, by norm_num, by norm_num, by norm_num, by norm_num, by norm_num, by norm_num⟩

theorem prime_29047611873442575647497758179 : Nat.Prime 29047611873442575647497758179 := by
  refine prime_of_certificate _ 2
    [2, 293, 305873, 545358713, 297159362677]
    (by decide) (by decide +kernel) ?_ (by decide +kernel) (by decide +kernel)
  simp only [List.forall_mem_cons, List.not_mem_nil, false_imp_iff, implies_true, and_true]
  exact ⟨by norm_num, by norm_num, by norm_num, prime_545358713, prime_297159362677⟩

theorem prime_341948486974166000522343609283189 : Nat.Prime 341948486974166000522343609283189 := by
  refine prime_of_certificate _ 2
    [2, 2, 3, 3, 3, 109, 29047611873442575647497758179]
    (by decide) (by decide +kernel) ?_ (by decide +kernel) (by decide +kernel)
  simp only [List.forall_mem_cons, List.not_mem_nil, false_imp_iff, implies_true, and_true]
  exact ⟨by norm_num, by norm_num, by norm_num, by norm_num, by norm_num, by norm_num,
      prime_29047611873442575647497758179⟩

/-- n is prime (R52). -/
theorem curveN_prime : Nat.Prime Config.curveN := by
  refine prime_of_certificate _ 7
    [2, 2, 2, 2, 2, 2, 3, 149, 631, 107361793816595537, 174723607534414371449,
      341948486974166000522343609283189]
    (by decide) (by decide +kernel) ?_ (by decide +kernel) (by decide +kernel)
  simp only [List.forall_mem_cons, List.not_mem_nil, false_imp_iff, implies_true, and_true]
  exact ⟨by norm_num, by norm_num, by norm_num, by norm_num, by norm_num, by norm_num,
      by norm_num, by norm_num, by norm_num, prime_107361793816595537,
      prime_174723607534414371449, prime_341948486974166000522343609283189⟩

/-- Both moduli are prime (R52). -/
theorem Modulus_value_prime (m : Modulus) : m.value.Prime := by
  cases m
  · exact curveP_prime
  · exact curveN_prime

end Sys2Proof.Machine
end

