-- ==== Sys2Proof/Laws/Curve.lean ====
section
/-! SUPPORT. The inverter and the curve test in the field of residues, and what reading an operand can answer
(R53, R59, R61). -/

namespace Sys2Proof.Machine

/-- Modulo a prime, the inverter inverts (R10). -/
theorem cast_invMod {m : Nat} (hp : m.Prime) (hm : m < 2 ^ 256) {a : Nat} (ha : (a : ZMod m) ≠ 0) :
    ((invMod m a : Nat) : ZMod m) = (a : ZMod m)⁻¹ := by
  have : Fact m.Prime := ⟨hp⟩
  have h2 := hp.two_le
  rw [invMod, fermatInv, cast_powMod hp.pos a (by omega)]
  apply eq_inv_of_mul_eq_one_left
  rw [← pow_succ, show m - 2 + 1 = m - 1 by omega]
  exact ZMod.pow_card_sub_one_eq_one ha

/-- A reduced nonzero operand is nonzero in the field. -/
theorem cast_ne_zero {m a : Nat} (h1 : 1 ≤ a) (h2 : a < m) : (a : ZMod m) ≠ 0 := by
  rw [Ne, ZMod.natCast_eq_zero_iff]
  exact fun h => absurd (Nat.le_of_dvd (by omega) h) (by omega)

/-- The curve test is the curve equation over the field of p elements (R6, R11). -/
theorem onCurve_iff (x y : Nat) :
    onCurve x y = true ↔ (y : ZMod Config.curveP) ^ 2 = (x : ZMod Config.curveP) ^ 3 + 7 := by
  have hpos : 0 < Config.curveP := by decide
  rw [onCurve, beq_iff_eq]
  have hlt := modInt_lt ((y : Int) * y - ((x : Int) * x * x + Config.curveA * x + Config.curveB)) hpos
  have hc := cast_modInt ((y : Int) * y - ((x : Int) * x * x + Config.curveA * x + Config.curveB)) hpos
  have e : modInt ((y : Int) * y - ((x : Int) * x * x + Config.curveA * x + Config.curveB))
        Config.curveP = 0 ↔
      ((modInt ((y : Int) * y - ((x : Int) * x * x + Config.curveA * x + Config.curveB))
        Config.curveP : Nat) : ZMod Config.curveP) = 0 := by
    rw [ZMod.natCast_eq_zero_iff]
    exact ⟨fun h => h ▸ dvd_zero _, fun h => Nat.eq_zero_of_dvd_of_lt h hlt⟩
  rw [e, hc]
  simp only [Config.curveA, Config.curveB]
  push_cast
  rw [sub_eq_zero]
  constructor <;> intro h <;> linear_combination h

theorem reducedOperand_ok {S : RegFiles} {m : Modulus} {i : RegField} (h : (S.getF i).toNat < m.value) :
    reducedOperand S m i = .ok (S.getF i).toNat := if_pos h

theorem reducedOperand_error {S : RegFiles} {m : Modulus} {i : RegField}
    (h : m.value ≤ (S.getF i).toNat) : reducedOperand S m i = .error .range := if_neg (by omega)

/-- Everything reading a point register can answer (R61). -/
theorem pointOf_cases (r : PointReg) :
    (r.inf = true ∧ pointOf r = .ok .infinity) ∨
    (r.inf = false ∧ (Config.curveP ≤ r.x.toNat ∨ Config.curveP ≤ r.y.toNat) ∧
      pointOf r = .error .range) ∨
    (r.inf = false ∧ r.x.toNat < Config.curveP ∧ r.y.toNat < Config.curveP ∧
      onCurve r.x.toNat r.y.toNat = false ∧ pointOf r = .error .curve) ∨
    (r.inf = false ∧ r.x.toNat < Config.curveP ∧ r.y.toNat < Config.curveP ∧
      onCurve r.x.toNat r.y.toNat = true ∧ pointOf r = .ok (.affine r.x.toNat r.y.toNat)) := by
  unfold pointOf
  cases hi : r.inf
  · by_cases hr : Config.curveP ≤ r.x.toNat ∨ Config.curveP ≤ r.y.toNat
    · exact .inr (.inl ⟨rfl, hr, by rw [if_neg Bool.false_ne_true, if_pos hr]⟩)
    · rw [if_neg Bool.false_ne_true, if_neg hr]
      rw [not_or, not_le, not_le] at hr
      cases hc : onCurve r.x.toNat r.y.toNat
      · exact .inr (.inr (.inl ⟨rfl, hr.1, hr.2, rfl, rfl⟩))
      · exact .inr (.inr (.inr ⟨rfl, hr.1, hr.2, rfl, rfl⟩))
  · exact .inl ⟨rfl, rfl⟩

/-- What a command writes for a point value below p reads back as that value (R16). -/
theorem toReg_affine {x y : Nat} (hx : x < Config.curveP) (hy : y < Config.curveP) :
    (Point.affine x y).toReg.inf = false ∧ (Point.affine x y).toReg.x.toNat = x ∧
      (Point.affine x y).toReg.y.toNat = y := by
  have hp : Config.curveP < 2 ^ 256 := by decide
  exact ⟨rfl, Nat.mod_eq_of_lt (by omega), Nat.mod_eq_of_lt (by omega)⟩

end Sys2Proof.Machine
end

