-- ==== Sys2Proof/Laws/Encoding.lean ====
section
/-! SUPPORT. Each field of a command word reads back (R45), and the decoder's checks as one equation. -/

namespace Sys2Proof

variable (op : BitVec 8) (d a b : RegField) (m : BitVec 1)

/-- The bits of a command word, by place (R45). -/
theorem getLsbD_commandWord (i : Nat) :
    (commandWord op d a b m).getLsbD i =
      if i < 8 then op.getLsbD i else if i < 12 then d.getLsbD (i - 8)
      else if i < 16 then a.getLsbD (i - 12) else if i < 20 then b.getLsbD (i - 16)
      else if i < 21 then m.getLsbD (i - 20) else false := by
  simp only [commandWord, BitVec.getLsbD_append, BitVec.getLsbD_zero, Nat.sub_sub]
  split_ifs <;> first | rfl | omega

@[simp] theorem opField_commandWord : opField (commandWord op d a b m) = op := by
  apply BitVec.eq_of_getLsbD_eq
  intro i hi
  rw [opField, BitVec.getLsbD_extractLsb', getLsbD_commandWord]
  split_ifs <;> first | omega | simp [*]

@[simp] theorem dField_commandWord : dField (commandWord op d a b m) = d := by
  apply BitVec.eq_of_getLsbD_eq
  intro i hi
  rw [dField, BitVec.getLsbD_extractLsb', getLsbD_commandWord]
  split_ifs <;> first | omega | simp [hi]

@[simp] theorem aField_commandWord : aField (commandWord op d a b m) = a := by
  apply BitVec.eq_of_getLsbD_eq
  intro i hi
  rw [aField, BitVec.getLsbD_extractLsb', getLsbD_commandWord]
  split_ifs <;> first | omega | simp [hi]

@[simp] theorem bField_commandWord : bField (commandWord op d a b m) = b := by
  apply BitVec.eq_of_getLsbD_eq
  intro i hi
  rw [bField, BitVec.getLsbD_extractLsb', getLsbD_commandWord]
  split_ifs <;> first | omega | simp [hi]

@[simp] theorem mField_commandWord : mField (commandWord op d a b m) = m := by
  apply BitVec.eq_of_getLsbD_eq
  intro i hi
  rw [mField, BitVec.getLsbD_extractLsb', getLsbD_commandWord]
  split_ifs <;> first | omega | simp [hi]

@[simp] theorem rsvField_commandWord : rsvField (commandWord op d a b m) = 0#11 := by
  apply BitVec.eq_of_getLsbD_eq
  intro i hi
  rw [rsvField, BitVec.getLsbD_extractLsb', getLsbD_commandWord, BitVec.getLsbD_zero]
  split_ifs <;> first | omega | simp

/-- A word is made of its fields (R45). -/
theorem commandWord_fields (w : Word) (h : rsvField w = 0#11) :
    commandWord (opField w) (dField w) (aField w) (bField w) (mField w) = w := by
  ext i hi
  rw [← BitVec.getLsbD_eq_getElem, getLsbD_commandWord, ← BitVec.getLsbD_eq_getElem]
  have hz := congrArg (fun v => v.getLsbD (i - 21)) h
  simp only [rsvField, BitVec.getLsbD_extractLsb', BitVec.getLsbD_zero] at hz
  simp only [opField, dField, aField, bField, mField, BitVec.getLsbD_extractLsb']
  split_ifs
  · simp [*]
  · simp [show i - 8 < 4 by omega, show 8 + (i - 8) = i by omega]
  · simp [show i - 12 < 4 by omega, show 12 + (i - 12) = i by omega]
  · simp [show i - 16 < 4 by omega, show 16 + (i - 16) = i by omega]
  · simp [show i - 20 < 1 by omega, show 20 + (i - 20) = i by omega]
  · simp [show i - 21 < 11 by omega, show 21 + (i - 21) = i by omega] at hz
    simp [hz]

@[simp] theorem modulusOf_modulusBit (m : Modulus) : modulusOf (modulusBit m) = m := by
  cases m <;> rfl

@[simp] theorem modulusBit_modulusOf (b : BitVec 1) : modulusBit (modulusOf b) = b := by
  revert b
  decide

/-- `require` answers its command exactly when every check holds. -/
theorem require_eq_instr {i j : Instr} {checks : List (Bool × Rejection)} :
    require i checks = .instr j ↔ i = j ∧ ∀ c ∈ checks, c.1 = true := by
  induction checks with
  | nil => simp [require]
  | cons c rest ih =>
    obtain ⟨ok, why⟩ := c
    cases ok <;> simp [require, ih]

end Sys2Proof
end

