-- ==== Sys2Proof/Laws/GroupLaw.lean ====
section
/-! SUPPORT. `pointAdd` on valid points is the addition of Mathlib's group of the curve y² = x³ + 7 over
ZMod p (R62 to R64). -/

namespace Sys2Proof.Laws.GroupLaw

open Sys2Proof Sys2Proof.Machine

variable [Fact Config.curveP.Prime]

/-- The field of p elements. -/
abbrev K := ZMod Config.curveP

/-- y² = x³ + 7 (R6). -/
def W : WeierstrassCurve K := ⟨0,0,0,0,7⟩

/-- A number between 0 and p is nonzero in the field. -/
theorem natne {n : ℕ} (h0 : 0 < n) (h : n < Config.curveP) : (n : K) ≠ 0 := cast_ne_zero h0 h

/-- The curve is non-singular. -/
theorem Wdelta : W.Δ ≠ 0 := by
  have : W.Δ = -(((21168 : ℕ)) : K) := by
    simp [WeierstrassCurve.Δ, WeierstrassCurve.b₂, WeierstrassCurve.b₄, WeierstrassCurve.b₆,
      WeierstrassCurve.b₈, W]; norm_num
  rw [this, neg_ne_zero]
  exact natne (by decide) (by decide)

/-- The block's curve test is the equation of W. -/
theorem eqn_iff (x y : ℕ) : W.toAffine.Equation x y ↔ onCurve x y = true := by
  rw [onCurve_iff, WeierstrassCurve.Affine.equation_iff]; simp [W]

/-- Every on-curve pair is a non-singular point. -/
theorem ns (x y : ℕ) (h : onCurve x y = true) : W.toAffine.Nonsingular x y :=
  (WeierstrassCurve.Affine.equation_iff_nonsingular_of_Δ_ne_zero Wdelta).1 ((eqn_iff x y).2 h)

open Classical in
/-- A point value as an element of the group of the curve; a pair off the curve is sent to 0. -/
noncomputable def toM : Point → W.toAffine.Point
  | .infinity => 0
  | .affine x y => if h : onCurve x y = true then .some _ _ (ns x y h) else 0

/-- Reduced numbers are known from their residues. -/
theorem castInj {a b : ℕ} (ha : a < Config.curveP) (hb : b < Config.curveP) (h : (a : K) = b) : a =
    b := by
  rw [ZMod.natCast_eq_natCast_iff'] at h
  rwa [Nat.mod_eq_of_lt ha, Nat.mod_eq_of_lt hb] at h

omit [Fact Config.curveP.Prime] in
/-- p is positive. -/
theorem ppos : 0 < Config.curveP := by decide

/-- -7 is not a cube modulo p, so no point of the curve has y = 0 (R63). -/
theorem y_ne_zero {x : ℕ} : onCurve x 0 ≠ true := by
  rw [Ne, onCurve_iff]
  intro h
  have hx : (x : K)^3 = -7 := by simp at h; linear_combination -h
  have hx0 : (x : K) ≠ 0 := by
    intro h0; rw [h0] at hx; have := natne (n:=7) (by decide) (by decide); simp at hx
    exact this (by exact_mod_cast hx)
  have hf := ZMod.pow_card_sub_one_eq_one hx0
  have e : Config.curveP - 1 = 3 * ((Config.curveP-1)/3) := by decide
  rw [e, pow_mul, hx] at hf
  have c := cast_powMod ppos (Config.curveP - 7) (e := (Config.curveP-1)/3) (by decide)
  have : ((Config.curveP - 7 : ℕ) : K) = -7 := by rw [Nat.cast_sub (by decide)]; simp
  rw [this, hf] at c
  have : powMod Config.curveP (Config.curveP - 7) ((Config.curveP-1)/3) ≠ 1 := by decide +kernel
  apply this
  have l := powMod_lt ppos (Config.curveP-7) ((Config.curveP-1)/3)
  apply castInj l (by decide)
  rw [c, Nat.cast_one]

/-- A finite valid point, in the group. -/
theorem toM_some {x y : ℕ} (h : onCurve x y = true) : toM (.affine x y) = .some _ _ (ns x y h) := by
  simp [toM, h]

/-- A finite valid point, in the group, from the residues of its coordinates. -/
theorem some_eq {x y : ℕ} {a b : K} (h : W.toAffine.Nonsingular a b) (hc : onCurve x y = true)
    (hx : (x : K) = a) (hy : (y : K) = b) : toM (.affine x y) = .some _ _ h := by
  subst hx hy; exact toM_some hc

/-- The third point of R62 is the sum when its slope is the slope of the chord or tangent. -/
theorem chord_spec {lam x1 y1 x2 y2 : ℕ} (h1 : onCurve x1 y1 = true) (h2 : onCurve x2 y2 = true)
    (hne : ¬ ((x1 : K) = x2 ∧ (y1 : K) = W.toAffine.negY x2 y2))
    (hl : (lam : K) = W.toAffine.slope x1 x2 y1 y2) :
    (chordPoint lam x1 y1 x2).Valid ∧
      toM (chordPoint lam x1 y1 x2) = toM (.affine x1 y1) + toM (.affine x2 y2) := by
  have hns := WeierstrassCurve.Affine.nonsingular_add (ns x1 y1 h1) (ns x2 y2 h2) hne
  rw [toM_some h1, toM_some h2, WeierstrassCurve.Affine.Point.add_some hne]
  unfold chordPoint
  simp only
  set x3 := modInt ((lam : Int) * lam - x1 - x2) Config.curveP with hx3
  set y3 := modInt ((lam : Int) * ((x1 : Int) - x3) - y1) Config.curveP with hy3
  have ex : (x3 : K) = W.toAffine.addX x1 x2 (W.toAffine.slope x1 x2 y1 y2) := by
    rw [hx3, cast_modInt _ ppos, ← hl]; push_cast; simp [WeierstrassCurve.Affine.addX, W]; ring
  have ey : (y3 : K) = W.toAffine.addY x1 x2 y1 (W.toAffine.slope x1 x2 y1 y2) := by
    rw [hy3, cast_modInt _ ppos]; push_cast; rw [ex, ← hl]
    simp [WeierstrassCurve.Affine.addY, WeierstrassCurve.Affine.negAddY,
      WeierstrassCurve.Affine.negY, W]; ring
  have hc : onCurve x3 y3 = true := by
    rw [← eqn_iff, ex, ey]; exact hns.1
  exact ⟨⟨modInt_lt _ ppos, modInt_lt _ ppos, hc⟩, some_eq _ hc ex ey⟩

/-- The other root. -/
theorem negY_eq (x y : K) : W.toAffine.negY x y = -y := by simp [WeierstrassCurve.Affine.negY, W]

/-- add(P, Q) of R62 never fails on valid points, gives a valid point,
and is addition in the group (R63, R64). -/
theorem add_spec (P Q : Point) (hP : P.Valid) (hQ : Q.Valid) :
    ∃ R, pointAdd P Q = .ok R ∧ R.Valid ∧ toM R = toM P + toM Q := by
  cases P with
  | infinity => exact ⟨Q, rfl, hQ, by simp [toM]⟩
  | affine x1 y1 =>
  cases Q with
  | infinity => exact ⟨_, rfl, hP, by simp [toM]⟩
  | affine x2 y2 =>
    obtain ⟨a1, b1, c1⟩ := hP
    obtain ⟨a2, b2, c2⟩ := hQ
    have hneg : (y1 = modInt (-(y2 : Int)) Config.curveP) ↔ (y1 : K) = -y2 := by
      have e := cast_modInt (-(y2:Int)) ppos
      push_cast at e
      rw [← e]
      exact ⟨fun h => congrArg _ h, castInj b1 (modInt_lt _ ppos)⟩
    simp only [pointAdd]
    by_cases h : x1 = x2 ∧ y1 = modInt (-(y2 : Int)) Config.curveP
    · rw [if_pos h]
      refine ⟨_, rfl, trivial, ?_⟩
      rw [toM_some c1, toM_some c2,
        WeierstrassCurve.Affine.Point.add_of_Y_eq (by rw [h.1]) (by rw [negY_eq]; exact hneg.1 h.2)]
      rfl
    · rw [if_neg h]
      have hne : ¬ ((x1 : K) = x2 ∧ (y1 : K) = W.toAffine.negY x2 y2) := by
        rw [negY_eq]; rintro ⟨u, v⟩; exact h ⟨castInj a1 a2 u, hneg.2 v⟩
      by_cases h' : x1 = x2 ∧ y1 = y2
      · rw [if_pos h']
        obtain ⟨rfl, rfl⟩ := h'
        have hy0 : (2 * y1 : K) ≠ 0 := by
          have : (y1 : K) ≠ 0 := fun h0 => by
            have : y1 = 0 := castInj b1 ppos (by simpa using h0)
            subst this; exact y_ne_zero c1
          have t : ((2:ℕ) : K) ≠ 0 := natne (by decide) (by decide)
          exact mul_ne_zero (by exact_mod_cast t) this
        have et := cast_modInt (2 * (y1 : Int)) ppos
        push_cast at et
        have ht : modInt (2 * (y1 : Int)) Config.curveP ≠ 0 := fun h0 => by
          rw [h0] at et
          exact hy0 (by simpa using et.symm)
        simp only [ht, if_false]
        refine ⟨_, rfl, chord_spec c1 c2 hne ?_⟩
        rw [cast_modInt _ ppos]; push_cast
        rw [cast_invMod curveP_prime (by decide) (by rw [et]; exact hy0), et,
          WeierstrassCurve.Affine.slope_of_Y_ne rfl (fun e => hne ⟨rfl, e⟩), negY_eq]
        simp [W, Config.curveA, div_eq_mul_inv]; ring_nf
      · rw [if_neg h']
        have hx : (x1 : K) ≠ x2 := by
          intro e
          have exx := castInj a1 a2 e
          subst exx
          have q1 := (onCurve_iff _ _).1 c1
          have q2 := (onCurve_iff _ _).1 c2
          have : ((y1 : K) - y2) * (y1 + y2) = 0 := by linear_combination q1 - q2
          rcases mul_eq_zero.1 this with u | u
          · exact h' ⟨rfl, castInj b1 b2 (by linear_combination u)⟩
          · exact h ⟨rfl, hneg.2 (by linear_combination u)⟩
        have et := cast_modInt ((x2 : Int) - x1) ppos
        push_cast at et
        have hsub : (x2 : K) - x1 ≠ 0 := fun h0 => hx (by linear_combination -h0)
        have ht : modInt ((x2 : Int) - x1) Config.curveP ≠ 0 := fun h0 => by
          rw [h0] at et
          exact hsub (by simpa using et.symm)
        simp only [ht, if_false]
        refine ⟨_, rfl, chord_spec c1 c2 hne ?_⟩
        rw [cast_modInt _ ppos]; push_cast
        rw [cast_invMod curveP_prime (by decide) (by rw [et]; exact hsub), et,
          WeierstrassCurve.Affine.slope_of_X_ne hx]
        have : (x1 : K) - x2 ≠ 0 := sub_ne_zero.2 hx
        field_simp
        ring

/-- Valid points are known from their elements of the group. -/
theorem toM_inj {P Q : Point} (hP : P.Valid) (hQ : Q.Valid) (h : toM P = toM Q) : P = Q := by
  cases P with
  | infinity => cases Q with
    | infinity => rfl
    | affine x y =>
      rw [toM_some hQ.2.2] at h
      exact absurd h.symm (WeierstrassCurve.Affine.Point.some_ne_zero _)
  | affine x y => cases Q with
    | infinity =>
      rw [toM_some hP.2.2] at h
      exact absurd h (WeierstrassCurve.Affine.Point.some_ne_zero _)
    | affine x' y' =>
      rw [toM_some hP.2.2, toM_some hQ.2.2] at h
      simp only [WeierstrassCurve.Affine.Point.some.injEq] at h
      rw [castInj hP.1 hQ.1 h.1, castInj hP.2.1 hQ.2.1 h.2]


end Sys2Proof.Laws.GroupLaw
end

