-- ==== Sys2Proof/Laws/PerInstr.lean ====
section
/-! SUPPORT. A fact about every command as syntax, one lemma for each constructor. -/

namespace Sys2Proof

/-- Class F leaves bit 3 of the field clear (R46). -/
theorem fieldReg_bits : ∀ i : RegField, isFieldReg i = true → i[3] = false := by decide

/-- Class P leaves bits 3 and 2 of the field clear (R46). -/
theorem pointReg_bits : ∀ i : RegField, isPointReg i = true →
    i[2] = false ∧ i[3] = false := by decide

/-- A command word matches a mask and a pattern when it does so in every bit, each bit coming from its
field. -/
theorem commandWord_and_eq (op : BitVec 8) (d a b : RegField) (m : BitVec 1) (mask pattern : Word)
    (h : ∀ k < 32, ((if k < 8 then op.getLsbD k else if k < 12 then d.getLsbD (k - 8)
      else if k < 16 then a.getLsbD (k - 12) else if k < 20 then b.getLsbD (k - 16)
      else if k < 21 then m.getLsbD (k - 20) else false) && mask.getLsbD k) = pattern.getLsbD k) :
    commandWord op d a b m &&& mask = pattern := by
  apply BitVec.eq_of_getLsbD_eq
  intro k hk
  rw [BitVec.getLsbD_and, getLsbD_commandWord]
  exact h k hk

end Sys2Proof

namespace Sys2Proof.Laws.Row

/-- The word of a well-formed command matches the row of R47's table that has its mnemonic. -/
def Statement (i : Instr) : Prop :=
  i.wellFormed = true → ∃ r ∈ opcodeTable, r.mnemonic = i.mnemonic ∧ r.covers (encode i) = true

theorem of_row {i : Instr} (r : OpcodeRow) (hr : r ∈ opcodeTable) (hm : r.mnemonic = i.mnemonic)
    (h : i.wellFormed = true → encode i &&& r.mask = r.pattern) : Statement i :=
  fun hw => ⟨r, hr, hm, by rw [OpcodeRow.covers, h hw, beq_self_eq_true]⟩

theorem nop : Statement .nop :=
  of_row ⟨"NOP", 0x00000000#32, 0xFFFFFFFF#32⟩ (by decide) rfl (fun _ => by decide)

theorem fadd (d a b : RegField) (m : Modulus) : Statement (.fadd d a b m) := by
  refine of_row ⟨"FADD", 0x00000001#32, 0xFFE888FF#32⟩ (by decide) rfl (fun hw => ?_)
  simp only [Instr.wellFormed, Bool.and_eq_true] at hw
  have hd := fieldReg_bits d hw.1.1
  have ha := fieldReg_bits a hw.1.2
  have hb := fieldReg_bits b hw.2
  apply commandWord_and_eq
  intro k hk
  interval_cases k <;> simp [hd, ha, hb]

theorem fsub (d a b : RegField) (m : Modulus) : Statement (.fsub d a b m) := by
  refine of_row ⟨"FSUB", 0x00000002#32, 0xFFE888FF#32⟩ (by decide) rfl (fun hw => ?_)
  simp only [Instr.wellFormed, Bool.and_eq_true] at hw
  have hd := fieldReg_bits d hw.1.1
  have ha := fieldReg_bits a hw.1.2
  have hb := fieldReg_bits b hw.2
  apply commandWord_and_eq
  intro k hk
  interval_cases k <;> simp [hd, ha, hb]

theorem fmul (d a b : RegField) (m : Modulus) : Statement (.fmul d a b m) := by
  refine of_row ⟨"FMUL", 0x00000003#32, 0xFFE888FF#32⟩ (by decide) rfl (fun hw => ?_)
  simp only [Instr.wellFormed, Bool.and_eq_true] at hw
  have hd := fieldReg_bits d hw.1.1
  have ha := fieldReg_bits a hw.1.2
  have hb := fieldReg_bits b hw.2
  apply commandWord_and_eq
  intro k hk
  interval_cases k <;> simp [hd, ha, hb]

theorem finv (d a : RegField) (m : Modulus) : Statement (.finv d a m) := by
  refine of_row ⟨"FINV", 0x00000004#32, 0xFFEF88FF#32⟩ (by decide) rfl (fun hw => ?_)
  simp only [Instr.wellFormed, Bool.and_eq_true] at hw
  have hd := fieldReg_bits d hw.1
  have ha := fieldReg_bits a hw.2
  apply commandWord_and_eq
  intro k hk
  interval_cases k <;> simp [hd, ha]

theorem fred (d a : RegField) (m : Modulus) : Statement (.fred d a m) := by
  refine of_row ⟨"FRED", 0x00000005#32, 0xFFEF88FF#32⟩ (by decide) rfl (fun hw => ?_)
  simp only [Instr.wellFormed, Bool.and_eq_true] at hw
  have hd := fieldReg_bits d hw.1
  have ha := fieldReg_bits a hw.2
  apply commandWord_and_eq
  intro k hk
  interval_cases k <;> simp [hd, ha]

theorem padd (d a b : RegField) : Statement (.padd d a b) := by
  refine of_row ⟨"PADD", 0x00000010#32, 0xFFFCCCFF#32⟩ (by decide) rfl (fun hw => ?_)
  simp only [Instr.wellFormed, Bool.and_eq_true] at hw
  obtain ⟨hd, hd'⟩ := pointReg_bits d hw.1.1
  obtain ⟨ha, ha'⟩ := pointReg_bits a hw.1.2
  obtain ⟨hb, hb'⟩ := pointReg_bits b hw.2
  apply commandWord_and_eq
  intro k hk
  interval_cases k <;> simp [hd, hd', ha, ha', hb, hb']

theorem pdbl (d a : RegField) : Statement (.pdbl d a) := by
  refine of_row ⟨"PDBL", 0x00000011#32, 0xFFFFCCFF#32⟩ (by decide) rfl (fun hw => ?_)
  simp only [Instr.wellFormed, Bool.and_eq_true] at hw
  obtain ⟨hd, hd'⟩ := pointReg_bits d hw.1
  obtain ⟨ha, ha'⟩ := pointReg_bits a hw.2
  apply commandWord_and_eq
  intro k hk
  interval_cases k <;> simp [hd, hd', ha, ha']

theorem pmul (d a b : RegField) : Statement (.pmul d a b) := by
  refine of_row ⟨"PMUL", 0x00000012#32, 0xFFFC8CFF#32⟩ (by decide) rfl (fun hw => ?_)
  simp only [Instr.wellFormed, Bool.and_eq_true] at hw
  obtain ⟨hd, hd'⟩ := pointReg_bits d hw.1.1
  have ha := fieldReg_bits a hw.1.2
  obtain ⟨hb, hb'⟩ := pointReg_bits b hw.2
  apply commandWord_and_eq
  intro k hk
  interval_cases k <;> simp [hd, hd', ha, hb, hb']

theorem pchk (a : RegField) : Statement (.pchk a) := by
  refine of_row ⟨"PCHK", 0x00000013#32, 0xFFFFCFFF#32⟩ (by decide) rfl (fun hw => ?_)
  obtain ⟨ha, ha'⟩ := pointReg_bits a hw
  apply commandWord_and_eq
  intro k hk
  interval_cases k <;> simp [ha, ha']

end Sys2Proof.Laws.Row
end

