-- ==== Sys2Proof/Laws/Registers.lean ====
section
/-! SUPPORT. Reading a register after writing one: the laws of the register files. -/

namespace Sys2Proof.Machine

theorem isFieldReg_iff {i : RegField} : isFieldReg i = true ↔ i.toNat < 8 := decide_eq_true_iff

theorem isPointReg_iff {i : RegField} : isPointReg i = true ↔ i.toNat < 4 := decide_eq_true_iff

variable (r : RegFiles) (i j : RegField)

theorem RegFiles.getF_setF_self (v : FWord) (h : isFieldReg i = true) :
    (r.setF i v).getF i = v := by
  have := isFieldReg_iff.1 h
  simp [RegFiles.getF, RegFiles.setF, this]

theorem RegFiles.getF_setF_ne (v : FWord) (h : j ≠ i) : (r.setF i v).getF j = r.getF j := by
  have h' : i.toNat ≠ j.toNat := fun e => h (BitVec.eq_of_toNat_eq e.symm)
  simp [RegFiles.getF, RegFiles.setF, h']

@[simp] theorem RegFiles.getP_setF (v : FWord) : (r.setF i v).getP j = r.getP j := rfl

theorem RegFiles.getP_setP_self (v : PointReg) (h : isPointReg i = true) :
    (r.setP i v).getP i = v := by
  have := isPointReg_iff.1 h
  simp [RegFiles.getP, RegFiles.setP, this]

theorem RegFiles.getP_setP_ne (v : PointReg) (h : j ≠ i) : (r.setP i v).getP j = r.getP j := by
  have h' : i.toNat ≠ j.toNat := fun e => h (BitVec.eq_of_toNat_eq e.symm)
  simp [RegFiles.getP, RegFiles.setP, h']

@[simp] theorem RegFiles.getF_setP (v : PointReg) : (r.setP i v).getF j = r.getF j := rfl

@[simp] theorem RegFiles.getF_reset : RegFiles.reset.getF i = 0#256 := by
  simp only [RegFiles.getF, RegFiles.reset, Vector.getElem?_replicate]
  split <;> rfl

@[simp] theorem RegFiles.getP_reset : RegFiles.reset.getP i = ⟨0#256, 0#256, true⟩ := by
  simp only [RegFiles.getP, RegFiles.reset, Vector.getElem?_replicate]
  split <;> rfl

/-- Two register files that read alike are equal. -/
theorem RegFiles.ext_get {r r' : RegFiles} (hf : ∀ i, r.getF i = r'.getF i)
    (hp : ∀ i, r.getP i = r'.getP i) : r = r' := by
  obtain ⟨f, p⟩ := r
  obtain ⟨f', p'⟩ := r'
  have ef : f = f' := by
    ext i hi : 1
    have := hf (BitVec.ofNat 4 i)
    simpa [RegFiles.getF, Nat.mod_eq_of_lt (show i < 16 by omega), hi] using this
  have ep : p = p' := by
    ext i hi : 1
    have := hp (BitVec.ofNat 4 i)
    simpa [RegFiles.getP, Nat.mod_eq_of_lt (show i < 16 by omega), hi] using this
  rw [ef, ep]

/-- A coordinate below 2^256 reads back from the register it is written to. -/
theorem toNat_ofNat_of_lt {n : Nat} (h : n < 2 ^ 256) : (BitVec.ofNat 256 n).toNat = n := by
  simpa using Nat.mod_eq_of_lt h

end Sys2Proof.Machine
end

