-- ==== Sys2Proof/Laws/ScalarLaw.lean ====
section
/-! SUPPORT. Every scalar multiplication loop computes a multiple in the curve's group (R68, R69),
and that
group has n elements (R7, R68). -/

-- Kernel evaluations one after another: waiting side by side, they would hold a thread each.
set_option Elab.async false

namespace Sys2Proof.Laws.GroupLaw
open Sys2Proof Sys2Proof.Machine
variable [Fact Config.curveP.Prime]

/-- The k-fold sum, in the group. -/
theorem multiple_spec {P : Point} (k : ℕ) (hP : P.Valid) :
    ∃ R, multiple P k = .ok R ∧ R.Valid ∧ toM R = k • toM P := by
  induction k with
  | zero => exact ⟨_, rfl, trivial, by simp [toM]⟩
  | succ k ih =>
    obtain ⟨R, e, v, m⟩ := ih
    obtain ⟨T, e', v', m'⟩ := add_spec R P v hP
    exact ⟨T, by simp only [multiple, e]; exact e', v', by rw [m', m, succ_nsmul]⟩

omit [Fact Config.curveP.Prime] in
/-- One more binary digit of a remainder. -/
theorem mod_succ (k i : ℕ) : k % 2 ^ (i + 1) = k % 2 ^ i + 2 ^ i * (k.testBit i).toNat := by
  rw [Nat.mod_pow_succ, Nat.toNat_testBit]

/-- The loop of R68 from the point R. -/
theorem mulLoop_spec {P : Point} (k : ℕ) (hP : P.Valid) (i : ℕ) (R : Point) (hR : R.Valid) :
    ∃ T, mulLoop k P i R = .ok T ∧ T.Valid ∧ toM T = 2 ^ i • toM R + (k % 2 ^ i) • toM P := by
  induction i generalizing R with
  | zero => exact ⟨R, rfl, hR, by simp [Nat.mod_one]⟩
  | succ i ih =>
    obtain ⟨D, e, v, m⟩ := add_spec R R hR hR
    rw [mod_succ]
    cases hb : k.testBit i
    · obtain ⟨T, eT, vT, mT⟩ := ih D v
      refine ⟨T, by simp only [mulLoop, e, hb]; exact eT, vT, ?_⟩
      rw [mT, m]
      simp only [Bool.toNat_false, mul_zero, add_zero, pow_succ, mul_nsmul, two_nsmul, nsmul_add]
    · obtain ⟨D', e', v', m'⟩ := add_spec D P v hP
      obtain ⟨T, eT, vT, mT⟩ := ih D' v'
      refine ⟨T, ?_, vT, ?_⟩
      · simp only [mulLoop, e, hb, if_true, bind, Except.bind, e']; exact eT
      · rw [mT, m', m]
        simp only [Bool.toNat_true, mul_one, add_nsmul, nsmul_add, pow_succ, mul_nsmul, two_nsmul]; abel

/-- mul(k, P) of R68, in the group. -/
theorem scalarMul_spec {P : Point} (k : ℕ) (hP : P.Valid) :
    ∃ T, scalarMul k P = .ok T ∧ T.Valid ∧ toM T = (k % Config.curveN) • toM P := by
  obtain ⟨T, e, v, m⟩ := mulLoop_spec (k % Config.curveN) hP 256 .infinity trivial
  have hl : k % Config.curveN < 2 ^ 256 := lt_trans (Nat.mod_lt _ (by decide)) (by decide)
  exact ⟨T, e, v, by rw [m, Nat.mod_eq_of_lt hl]; simp [toM]⟩

/-- Double-and-add from the least significant bit. -/
theorem lsbLoop_spec (k : ℕ) (j i : ℕ) (R Q : Point) (hR : R.Valid) (hQ : Q.Valid) :
    ∃ T, lsbLoop k j i R Q = .ok T ∧ T.Valid ∧ toM T = toM R + (k / 2 ^ i % 2 ^ j) • toM Q := by
  induction j generalizing i R Q with
  | zero => exact ⟨R, rfl, hR, by simp [Nat.mod_one]⟩
  | succ j ih =>
    obtain ⟨Q', e, v, m⟩ := add_spec Q Q hQ hQ
    have hk : k / 2 ^ i % 2 ^ (j + 1) = 2 * (k / 2 ^ (i + 1) % 2 ^ j) + (k.testBit i).toNat := by
      rw [pow_succ', Nat.mod_mul, Nat.toNat_testBit, Nat.div_div_eq_div_mul, ← pow_succ]; ring
    rw [hk]
    cases hb : k.testBit i
    · obtain ⟨T, eT, vT, mT⟩ := ih (i+1) R Q' hR v
      refine ⟨T, by simp only [lsbLoop, hb, bind, Except.bind, e]; exact eT, vT, ?_⟩
      rw [mT, m]; simp only [Bool.toNat_false, add_zero, mul_comm 2, mul_nsmul', two_nsmul, nsmul_add]
    · obtain ⟨R', e', v', m'⟩ := add_spec R Q hR hQ
      obtain ⟨T, eT, vT, mT⟩ := ih (i+1) R' Q' v' v
      refine ⟨T, by simp only [lsbLoop, hb, if_true, bind, Except.bind, e, e']; exact eT, vT, ?_⟩
      rw [mT, m', m]
      simp only [Bool.toNat_true, add_nsmul, one_nsmul, mul_comm 2, mul_nsmul', two_nsmul, nsmul_add]
      abel

/-- j doublings. -/
theorem doubleTimes_spec (j : ℕ) (R : Point) (hR : R.Valid) :
    ∃ T, doubleTimes j R = .ok T ∧ T.Valid ∧ toM T = 2 ^ j • toM R := by
  induction j generalizing R with
  | zero => exact ⟨R, rfl, hR, by simp⟩
  | succ j ih =>
    obtain ⟨D, e, v, m⟩ := add_spec R R hR hR
    obtain ⟨T, eT, vT, mT⟩ := ih D v
    exact ⟨T, by simp only [doubleTimes, e, bind, Except.bind]; exact eT, vT,
      by rw [mT, m, pow_succ, mul_nsmul', two_nsmul]⟩

/-- The fixed-window method, for any digit width. -/
theorem windowLoop_spec {P : Point} (w k : ℕ) (hP : P.Valid) (i : ℕ) (R : Point) (hR : R.Valid) :
    ∃ T, windowLoop w k P i R = .ok T ∧ T.Valid ∧
      toM T = 2 ^ (w * i) • toM R + (k % 2 ^ (w * i)) • toM P := by
  induction i generalizing R with
  | zero => exact ⟨R, rfl, hR, by simp [Nat.mod_one]⟩
  | succ i ih =>
    obtain ⟨D, e, v, m⟩ := doubleTimes_spec w R hR
    obtain ⟨U, eU, vU, mU⟩ := multiple_spec ((k >>> (w * i)) % 2 ^ w) hP
    obtain ⟨S, eS, vS, mS⟩ := add_spec D U v vU
    obtain ⟨T, eT, vT, mT⟩ := ih S vS
    refine ⟨T, by simp only [windowLoop, e, eU, eS, bind, Except.bind]; exact eT, vT, ?_⟩
    have hk : k % 2 ^ (w * (i + 1)) = k % 2 ^ (w * i) + 2 ^ (w * i) * ((k >>> (w * i)) % 2 ^ w) := by
      rw [mul_add, mul_one, pow_add, Nat.mod_mul, Nat.shiftRight_eq_div_pow]
    rw [mT, mS, m, mU, hk]
    simp only [add_nsmul, nsmul_add, mul_add, mul_one, pow_add, smul_smul]; abel

/-- The Montgomery ladder, whose second point stays the first plus P. -/
theorem ladderLoop_spec {P : Point} (k : ℕ) (i : ℕ) (R0 R1 : Point) (h0 : R0.Valid) (h1 : R1.Valid)
    (hP : toM R1 = toM R0 + toM P) :
    ∃ T, ladderLoop k i R0 R1 = .ok T ∧ T.Valid ∧ toM T = 2 ^ i • toM R0 + (k % 2 ^ i) • toM P := by
  induction i generalizing R0 R1 with
  | zero => exact ⟨R0, rfl, h0, by simp [Nat.mod_one]⟩
  | succ i ih =>
    obtain ⟨S, e, v, m⟩ := add_spec R0 R1 h0 h1
    rw [mod_succ]
    cases hb : k.testBit i
    · obtain ⟨D, e', v', m'⟩ := add_spec R0 R0 h0 h0
      obtain ⟨T, eT, vT, mT⟩ := ih D S v' v (by rw [m, m', hP]; abel)
      refine ⟨T, by simp only [ladderLoop, e, e', hb, bind, Except.bind]; exact eT, vT, ?_⟩
      rw [mT, m']
      simp only [Bool.toNat_false, mul_zero, add_zero, pow_succ, mul_nsmul, two_nsmul, nsmul_add]
    · obtain ⟨D, e', v', m'⟩ := add_spec R1 R1 h1 h1
      obtain ⟨T, eT, vT, mT⟩ := ih S D v v' (by rw [m, m', hP]; abel)
      refine ⟨T, by simp only [ladderLoop, e, e', hb, if_true, bind, Except.bind]; exact eT, vT, ?_⟩
      rw [mT, m, hP]
      simp only [Bool.toNat_true, mul_one, add_nsmul, nsmul_add, pow_succ, mul_nsmul, two_nsmul]; abel

/-- The generator as a point value (R7). -/
def G : Point := .affine Config.curveGx Config.curveGy
omit [Fact Config.curveP.Prime] in
/-- The generator passes the operand check (R7). -/
theorem G_valid : G.Valid := ⟨by decide, by decide, by decide +kernel⟩
omit [Fact Config.curveP.Prime] in
/-- n times the generator, run by the kernel (R7). -/
theorem nG : mulLoop Config.curveN G 256 .infinity = .ok .infinity := by decide +kernel

/-- The generator has order n: n is prime and the generator is not O. -/
theorem order_G : addOrderOf (toM G) = Config.curveN := by
  obtain ⟨T, e, v, m⟩ := mulLoop_spec Config.curveN G_valid 256 .infinity trivial
  rw [nG] at e; cases e
  rw [Nat.mod_eq_of_lt (by decide)] at m
  have h : Config.curveN • toM G = 0 := by simpa [toM] using m.symm
  have : Fact Config.curveN.Prime := ⟨curveN_prime⟩
  refine addOrderOf_eq_prime h ?_
  rw [G, toM_some G_valid.2.2]; exact WeierstrassCurve.Affine.Point.some_ne_zero _

/-- A finite point by its x and which of the two roots y is. -/
noncomputable def code : W.toAffine.Point → Option (K × Bool)
  | .zero => none
  | .some x y _ => some (x, decide (2 * y.val < Config.curveP))

/-- Every element of the group is a point value of the block. -/
theorem toM_surj (Q : W.toAffine.Point) : ∃ P : Point, P.Valid ∧ toM P = Q := by
  cases Q with
  | zero => exact ⟨.infinity, trivial, rfl⟩
  | some x y h =>
    have hc : onCurve x.val y.val = true := by
      rw [← eqn_iff, ZMod.natCast_zmod_val, ZMod.natCast_zmod_val]; exact h.1
    exact ⟨.affine x.val y.val, ⟨ZMod.val_lt _, ZMod.val_lt _, hc⟩,
      some_eq h hc (ZMod.natCast_zmod_val _) (ZMod.natCast_zmod_val _)⟩

/-- A point is known from x and from which of the two roots y is. -/
theorem code_inj : Function.Injective code := by
  intro P Q h
  cases P with
  | zero => cases Q with
    | zero => rfl
    | some x y hq => simp [code] at h
  | some x y hp => cases Q with
    | zero => simp [code] at h
    | some x' y' hq =>
      simp only [code, Option.some.injEq, Prod.mk.injEq] at h
      obtain ⟨rfl, hd⟩ := h
      rw [decide_eq_decide] at hd
      have e1 := (WeierstrassCurve.Affine.equation_iff _ _).1 hp.1
      have e2 := (WeierstrassCurve.Affine.equation_iff _ _).1 hq.1
      simp only [W, WeierstrassCurve.toAffine] at e1 e2
      have hz : (y - y') * (y + y') = 0 := by linear_combination e1 - e2
      have : y = y' := by
        rcases mul_eq_zero.1 hz with u | u
        · exact sub_eq_zero.1 u
        · have hy : y' = -y := by linear_combination u
          subst hy
          by_cases h0 : y = 0
          · simp [h0]
          · have : NeZero y := ⟨h0⟩
            have hv := ZMod.val_neg_of_ne_zero y
            have hl := ZMod.val_lt y
            have hodd : Config.curveP % 2 = 1 := by decide
            omega
      subst this; rfl

/-- So the curve has at most 2p + 1 points. -/
theorem card_le : Finite W.toAffine.Point ∧ Nat.card W.toAffine.Point ≤ 2 * Config.curveP + 1 := by
  have hf : Finite W.toAffine.Point := Finite.of_injective code code_inj
  refine ⟨hf, (Nat.card_le_card_of_injective code code_inj).trans ?_⟩
  rw [Nat.card_eq_fintype_card, Fintype.card_option, Fintype.card_prod, ZMod.card, Fintype.card_bool]
  omega

/-- No point but O has order 2, since no point of the curve has y = 0 (R63). -/
theorem no_two_torsion (Q : W.toAffine.Point) (h : 2 • Q = 0) : Q = 0 := by
  cases Q with
  | zero => rfl
  | some x y hq =>
    exfalso
    rw [two_nsmul, ← eq_neg_iff_add_eq_zero, WeierstrassCurve.Affine.Point.neg_some] at h
    simp only [WeierstrassCurve.Affine.Point.some.injEq, negY_eq, true_and] at h
    have h2 : ((2 : ℕ) : K) ≠ 0 := natne (by decide) (by decide)
    have hy : y = 0 := by
      have : ((2:ℕ) : K) * y = 0 := by push_cast; linear_combination h
      exact (mul_eq_zero.1 this).resolve_left h2
    have hc : onCurve x.val 0 = true := by
      rw [← eqn_iff, ZMod.natCast_zmod_val, Nat.cast_zero, ← hy]; exact hq.1
    exact y_ne_zero hc

/-- The group has n elements: n divides their number, which is odd and below 3n. -/
theorem card_eq : Nat.card W.toAffine.Point = Config.curveN := by
  obtain ⟨hf, hle⟩ := card_le
  obtain ⟨c, hc⟩ : Config.curveN ∣ Nat.card W.toAffine.Point := order_G ▸ addOrderOf_dvd_natCard _
  have hpos : 0 < Nat.card W.toAffine.Point := Nat.card_pos
  have hodd : ¬ 2 ∣ Nat.card W.toAffine.Point := by
    intro h2
    have : Fact (Nat.Prime 2) := ⟨Nat.prime_two⟩
    obtain ⟨Q, hQ⟩ := exists_prime_addOrderOf_dvd_card' (G := W.toAffine.Point) 2 h2
    have h0 : Q = 0 := no_two_torsion Q (hQ ▸ addOrderOf_nsmul_eq_zero Q)
    rw [h0, addOrderOf_zero] at hQ
    omega
  have hc3 : c < 3 := by
    by_contra h
    have : Config.curveN * 3 ≤ Config.curveN * c := Nat.mul_le_mul_left _ (by omega)
    have : ¬ Config.curveN * 3 ≤ 2 * Config.curveP + 1 := by decide
    omega
  have : c ≠ 0 := by rintro rfl; omega
  have : c ≠ 2 := by rintro rfl; exact hodd ⟨_, hc.trans (mul_comm _ _)⟩
  have : c = 1 := by omega
  rw [hc, this, mul_one]

/-- n times any point is O. -/
theorem curveN_nsmul (Q : W.toAffine.Point) : Config.curveN • Q = 0 := by
  rw [← card_eq]; exact card_nsmul_eq_zero'
end Sys2Proof.Laws.GroupLaw
end

