-- ==== Sys2Proof/Laws/State.lean ====
section
/-! SUPPORT. One lemma for each field of the state under each named update. -/

namespace Sys2Proof.Machine

section
variable (s : State) (e : Effect)

@[simp] theorem State.completeOk_regs : (s.completeOk e).regs = e.write.apply s.regs := rfl
@[simp] theorem State.completeOk_ie : (s.completeOk e).ie = s.ie := rfl
@[simp] theorem State.completeOk_busy : (s.completeOk e).busy = false := rfl
@[simp] theorem State.completeOk_done : (s.completeOk e).done = true := rfl
@[simp] theorem State.completeOk_err : (s.completeOk e).err = s.err := rfl
@[simp] theorem State.completeOk_ovr : (s.completeOk e).ovr = s.ovr := rfl
@[simp] theorem State.completeOk_z : (s.completeOk e).z = e.z.getD s.z := rfl
@[simp] theorem State.completeOk_errcode : (s.completeOk e).errcode = s.errcode := rfl
@[simp] theorem State.completeOk_latch : (s.completeOk e).latch = none := rfl
@[simp] theorem State.completeOk_turns : (s.completeOk e).turns = s.turns := rfl
@[simp] theorem State.completeOk_response : (s.completeOk e).response = s.response := rfl
@[simp] theorem State.completeOk_draws : (s.completeOk e).draws = s.draws := rfl

end

section
variable (s : State) (c : ErrCode)

@[simp] theorem State.completeErr_regs : (s.completeErr c).regs = s.regs := rfl
@[simp] theorem State.completeErr_ie : (s.completeErr c).ie = s.ie := rfl
@[simp] theorem State.completeErr_busy : (s.completeErr c).busy = false := rfl
@[simp] theorem State.completeErr_done : (s.completeErr c).done = true := rfl
@[simp] theorem State.completeErr_err : (s.completeErr c).err = true := rfl
@[simp] theorem State.completeErr_ovr : (s.completeErr c).ovr = s.ovr := rfl
@[simp] theorem State.completeErr_z : (s.completeErr c).z = s.z := rfl
@[simp] theorem State.completeErr_errcode : (s.completeErr c).errcode = c.code := rfl
@[simp] theorem State.completeErr_latch : (s.completeErr c).latch = none := rfl
@[simp] theorem State.completeErr_turns : (s.completeErr c).turns = s.turns := rfl
@[simp] theorem State.completeErr_response : (s.completeErr c).response = s.response := rfl
@[simp] theorem State.completeErr_draws : (s.completeErr c).draws = s.draws := rfl

end

section
variable (s : State) (v : Word)

@[simp] theorem State.clearStatus_regs : (s.clearStatus v).regs = s.regs := rfl
@[simp] theorem State.clearStatus_ie : (s.clearStatus v).ie = s.ie := rfl
@[simp] theorem State.clearStatus_busy : (s.clearStatus v).busy = s.busy := rfl
@[simp] theorem State.clearStatus_done : (s.clearStatus v).done = (s.done && !v.getLsbD 1) := rfl
@[simp] theorem State.clearStatus_err : (s.clearStatus v).err = (s.err && !v.getLsbD 2) := rfl
@[simp] theorem State.clearStatus_ovr : (s.clearStatus v).ovr = (s.ovr && !v.getLsbD 3) := rfl
@[simp] theorem State.clearStatus_z : (s.clearStatus v).z = s.z := rfl
@[simp] theorem State.clearStatus_errcode : (s.clearStatus v).errcode = if v.getLsbD 2 then 0#4 else s.errcode := rfl
@[simp] theorem State.clearStatus_latch : (s.clearStatus v).latch = s.latch := rfl
@[simp] theorem State.clearStatus_turns : (s.clearStatus v).turns = s.turns := rfl
@[simp] theorem State.clearStatus_response : (s.clearStatus v).response = s.response := rfl
@[simp] theorem State.clearStatus_draws : (s.clearStatus v).draws = s.draws := rfl

end

section
variable (s : State) (w : Word) (k : Nat)

@[simp] theorem State.acceptWith_regs : (s.acceptWith w k).regs = s.regs := rfl
@[simp] theorem State.acceptWith_ie : (s.acceptWith w k).ie = s.ie := rfl
@[simp] theorem State.acceptWith_busy : (s.acceptWith w k).busy = true := rfl
@[simp] theorem State.acceptWith_done : (s.acceptWith w k).done = false := rfl
@[simp] theorem State.acceptWith_err : (s.acceptWith w k).err = false := rfl
@[simp] theorem State.acceptWith_ovr : (s.acceptWith w k).ovr = s.ovr := rfl
@[simp] theorem State.acceptWith_z : (s.acceptWith w k).z = s.z := rfl
@[simp] theorem State.acceptWith_errcode : (s.acceptWith w k).errcode = 0#4 := rfl
@[simp] theorem State.acceptWith_latch : (s.acceptWith w k).latch = some ⟨w, s.regs, k⟩ := rfl
@[simp] theorem State.acceptWith_turns : (s.acceptWith w k).turns = s.turns := rfl
@[simp] theorem State.acceptWith_response : (s.acceptWith w k).response = s.response := rfl
@[simp] theorem State.acceptWith_draws : (s.acceptWith w k).draws = s.draws := rfl

end

section
variable (s : State) (w : Word)

@[simp] theorem State.accept_regs : (s.accept w).regs = s.regs := rfl
@[simp] theorem State.accept_ie : (s.accept w).ie = s.ie := rfl
@[simp] theorem State.accept_busy : (s.accept w).busy = true := rfl
@[simp] theorem State.accept_done : (s.accept w).done = false := rfl
@[simp] theorem State.accept_err : (s.accept w).err = false := rfl
@[simp] theorem State.accept_ovr : (s.accept w).ovr = s.ovr := rfl
@[simp] theorem State.accept_z : (s.accept w).z = s.z := rfl
@[simp] theorem State.accept_errcode : (s.accept w).errcode = 0#4 := rfl
@[simp] theorem State.accept_latch : (s.accept w).latch = some ⟨w, s.regs, latency s.draws w s.regs⟩ := rfl
@[simp] theorem State.accept_turns : (s.accept w).turns = s.turns := rfl
@[simp] theorem State.accept_response : (s.accept w).response = s.response := rfl
@[simp] theorem State.accept_draws : (s.accept w).draws = s.draws + 1 := rfl

end

section
variable (s : State)

@[simp] theorem State.dropWrite_regs : s.dropWrite.regs = s.regs := rfl
@[simp] theorem State.dropWrite_ie : s.dropWrite.ie = s.ie := rfl
@[simp] theorem State.dropWrite_busy : s.dropWrite.busy = s.busy := rfl
@[simp] theorem State.dropWrite_done : s.dropWrite.done = s.done := rfl
@[simp] theorem State.dropWrite_err : s.dropWrite.err = s.err := rfl
@[simp] theorem State.dropWrite_ovr : s.dropWrite.ovr = true := rfl
@[simp] theorem State.dropWrite_z : s.dropWrite.z = s.z := rfl
@[simp] theorem State.dropWrite_errcode : s.dropWrite.errcode = s.errcode := rfl
@[simp] theorem State.dropWrite_latch : s.dropWrite.latch = s.latch := rfl
@[simp] theorem State.dropWrite_turns : s.dropWrite.turns = s.turns := rfl
@[simp] theorem State.dropWrite_response : s.dropWrite.response = s.response := rfl
@[simp] theorem State.dropWrite_draws : s.dropWrite.draws = s.draws := rfl

end

section
variable (s : State)

@[simp] theorem State.resetBlock_regs : s.resetBlock.regs = RegFiles.reset := rfl
@[simp] theorem State.resetBlock_ie : s.resetBlock.ie = false := rfl
@[simp] theorem State.resetBlock_busy : s.resetBlock.busy = false := rfl
@[simp] theorem State.resetBlock_done : s.resetBlock.done = false := rfl
@[simp] theorem State.resetBlock_err : s.resetBlock.err = false := rfl
@[simp] theorem State.resetBlock_ovr : s.resetBlock.ovr = false := rfl
@[simp] theorem State.resetBlock_z : s.resetBlock.z = false := rfl
@[simp] theorem State.resetBlock_errcode : s.resetBlock.errcode = 0#4 := rfl
@[simp] theorem State.resetBlock_latch : s.resetBlock.latch = none := rfl
@[simp] theorem State.resetBlock_turns : s.resetBlock.turns = s.turns := rfl
@[simp] theorem State.resetBlock_response : s.resetBlock.response = s.response := rfl
@[simp] theorem State.resetBlock_draws : s.resetBlock.draws = s.draws := rfl

end

@[simp] theorem State.complete_ok (s : State) (e : Effect) : s.complete (.ok e) = s.completeOk e := rfl

@[simp] theorem State.complete_error (s : State) (c : ErrCode) :
    s.complete (.error c) = s.completeErr c := rfl

/-- Every completion leaves the block idle with DONE = 1. -/
theorem State.complete_idle (s : State) (r : Result) :
    (s.complete r).busy = false ∧ (s.complete r).done = true ∧ (s.complete r).latch = none := by
  cases r <;> exact ⟨rfl, rfl, rfl⟩

/-- What no completion changes. -/
theorem State.complete_keeps (s : State) (r : Result) :
    (s.complete r).ie = s.ie ∧ (s.complete r).ovr = s.ovr ∧ (s.complete r).turns = s.turns ∧
      (s.complete r).response = s.response ∧ (s.complete r).draws = s.draws := by
  cases r <;> exact ⟨rfl, rfl, rfl, rfl, rfl⟩

/-- What a completion without error leaves: the error bits as they were, and Z as the effect says. -/
theorem State.completeOk_error_bits (s : State) (e : Effect) :
    (s.completeOk e).err = s.err ∧ (s.completeOk e).errcode = s.errcode := ⟨rfl, rfl⟩

theorem State.operands_of_latch {s : State} {l : Latch} (h : s.latch = some l) :
    s.operands = l.snapshot := by simp [State.operands, h]

theorem State.operands_of_idle {s : State} (h : s.latch = none) : s.operands = s.regs := by
  simp [State.operands, h]

end Sys2Proof.Machine
end

