-- ==== Sys2Proof/Laws/Window.lean ====
section
/-! SUPPORT. The address map as equations (R29 to R32), the words of a 256-bit register (R30, R33), and what a
host write can do. -/

namespace Sys2Proof.Machine

theorem targetOf_field {i : RegField} {j : Nat} (hi : isFieldReg i = true) (hj : j < 8) :
    targetOf (0x100 + 0x20 * i.toNat + 4 * j) = .fieldWord i j := by
  have := isFieldReg_iff.1 hi
  have h1 : (0x100 + 0x20 * i.toNat + 4 * j - 0x100) / 0x20 = i.toNat := by omega
  have h2 : (0x100 + 0x20 * i.toNat + 4 * j - 0x100) % 0x20 / 4 = j := by omega
  unfold targetOf
  rw [h1, h2]
  simp only [BitVec.ofNat_toNat, BitVec.setWidth_eq]
  split_ifs <;> first | omega | rfl

/-- Within P[i] the place decides (R31). -/
theorem targetOf_point {i : RegField} {r : Nat} (hi : isPointReg i = true) (hr : r < 0x80) :
    targetOf (0x200 + 0x80 * i.toNat + r) = pointTarget i r := by
  have := isPointReg_iff.1 hi
  have h1 : (0x200 + 0x80 * i.toNat + r - 0x200) / 0x80 = i.toNat := by omega
  have h2 : (0x200 + 0x80 * i.toNat + r - 0x200) % 0x80 = r := by omega
  unfold targetOf
  rw [h1, h2]
  simp only [BitVec.ofNat_toNat, BitVec.setWidth_eq]
  split_ifs <;> first | omega | rfl

theorem pointTarget_x (i : RegField) {j : Nat} (hj : j < 8) : pointTarget i (4 * j) = .pointX i j := by
  rw [pointTarget, if_pos (by omega), show 4 * j / 4 = j by omega]

theorem pointTarget_y (i : RegField) {j : Nat} (hj : j < 8) :
    pointTarget i (0x20 + 4 * j) = .pointY i j := by
  rw [pointTarget, if_neg (by omega), if_pos (by omega), show (0x20 + 4 * j - 0x20) / 4 = j by omega]

theorem pointTarget_inf (i : RegField) : pointTarget i 0x40 = .pointInf i := rfl

/-- Above the control registers the range decides. -/
theorem targetOf_ge {off : Nat} (h : 0x014 ≤ off) :
    targetOf off = if off < 0x100 then .reserved
      else if off < 0x200 then
        .fieldWord (BitVec.ofNat 4 ((off - 0x100) / 0x20)) ((off - 0x100) % 0x20 / 4)
      else if off < 0x400 then
        pointTarget (BitVec.ofNat 4 ((off - 0x200) / 0x80)) ((off - 0x200) % 0x80)
      else .reserved := by
  rw [targetOf, if_neg (by omega), if_neg (by omega), if_neg (by omega), if_neg (by omega),
    if_neg (by omega)]

theorem targetOf_reserved {off : Nat} (h : isReservedWord off) : targetOf off = .reserved := by
  obtain ⟨-, ⟨h1, h2⟩ | ⟨h1, h2, h3⟩ | ⟨h1, h2⟩⟩ := h
  · rw [targetOf_ge h1, if_pos h2]
  · rw [targetOf_ge (by omega), if_neg (by omega), if_neg (by omega), if_pos h2, pointTarget,
      if_neg (by omega), if_neg (by omega), if_neg (by omega)]
  · rw [targetOf_ge (by omega), if_neg (by omega), if_neg (by omega), if_neg (by omega)]

/-- A word of the register files is one of these (R30, R31). -/
theorem targetOf_register {off : Nat} (h : isRegisterWord off) :
    (∃ i j, isFieldReg i = true ∧ j < 8 ∧ targetOf off = .fieldWord i j ∧
      off = 0x100 + 0x20 * i.toNat + 4 * j) ∨
    (∃ i j, isPointReg i = true ∧ j < 8 ∧
      (targetOf off = .pointX i j ∧ off = 0x200 + 0x80 * i.toNat + 4 * j ∨
        targetOf off = .pointY i j ∧ off = 0x200 + 0x80 * i.toNat + (0x20 + 4 * j))) ∨
    ∃ i, isPointReg i = true ∧ targetOf off = .pointInf i ∧ off = 0x200 + 0x80 * i.toNat + 0x40 := by
  obtain ⟨h4, h⟩ := h
  have nat4 (k : Nat) (hk : k < 8) : (BitVec.ofNat 4 k).toNat = k := by
    simpa using Nat.mod_eq_of_lt (show k < 16 by omega)
  rcases h with ⟨h1, h2⟩ | ⟨h1, h2, h3⟩
  · left
    have hi : isFieldReg (BitVec.ofNat 4 ((off - 0x100) / 0x20)) = true := by
      rw [isFieldReg_iff, nat4 _ (by omega)]
      omega
    have hoff : off = 0x100 + 0x20 * (BitVec.ofNat 4 ((off - 0x100) / 0x20)).toNat +
        4 * ((off - 0x100) % 0x20 / 4) := by
      rw [nat4 _ (by omega)]
      omega
    refine ⟨BitVec.ofNat 4 ((off - 0x100) / 0x20), (off - 0x100) % 0x20 / 4, hi, by omega, ?_, hoff⟩
    have := targetOf_field (j := (off - 0x100) % 0x20 / 4) hi (by omega)
    rwa [← hoff] at this
  · right
    have hi : isPointReg (BitVec.ofNat 4 ((off - 0x200) / 0x80)) = true := by
      rw [isPointReg_iff, nat4 _ (by omega)]
      omega
    have hoff : off = 0x200 + 0x80 * (BitVec.ofNat 4 ((off - 0x200) / 0x80)).toNat +
        (off - 0x200) % 0x80 := by
      rw [nat4 _ (by omega)]
      omega
    have ht := targetOf_point (r := (off - 0x200) % 0x80) hi (by omega)
    rw [← hoff] at ht
    by_cases hx : (off - 0x200) % 0x80 < 0x20
    · refine .inl ⟨_, (off - 0x200) % 0x80 / 4, hi, by omega, .inl ⟨?_, by omega⟩⟩
      rw [ht, pointTarget, if_pos hx]
    · by_cases hy : (off - 0x200) % 0x80 < 0x40
      · refine .inl ⟨_, ((off - 0x200) % 0x80 - 0x20) / 4, hi, by omega, .inr ⟨?_, by omega⟩⟩
        rw [ht, pointTarget, if_neg hx, if_pos hy]
      · refine .inr ⟨_, hi, ?_, by omega⟩
        rw [ht, pointTarget, if_neg hx, if_neg hy, if_pos (by omega)]

/-- Every whole aligned offset is a control register, a register word or an unlisted one. -/
theorem offset_cases {off : Nat} (h4 : off % 4 = 0) (hlt : off < 0x1000) :
    off = 0x000 ∨ off = 0x004 ∨ off = 0x008 ∨ off = 0x00C ∨ off = 0x010 ∨ isRegisterWord off ∨
      isReservedWord off := by
  unfold isRegisterWord isReservedWord
  omega

/-- Word j of what `setWord` wrote, bit by bit. -/
theorem getLsbD_setWord (v : FWord) (j : Nat) (w : Word) (k : Nat) (hk : k < 256) :
    (setWord v j w).getLsbD k =
      if 32 * j ≤ k ∧ k < 32 * j + 32 then w.getLsbD (k - 32 * j) else v.getLsbD k := by
  have hm (n : Nat) : (0xFFFFFFFF#256).getLsbD n = decide (n < 32) := by
    rw [show (0xFFFFFFFF#256) = (BitVec.allOnes 32).setWidth 256 by decide]
    simp only [BitVec.getLsbD_setWidth, BitVec.getLsbD_allOnes]
    by_cases h : n < 32
    · simp [h, show n < 256 by omega]
    · simp [h]
  simp only [setWord, BitVec.getLsbD_or, BitVec.getLsbD_and, BitVec.getLsbD_not,
    BitVec.getLsbD_shiftLeft, BitVec.getLsbD_setWidth, hm, hk, decide_true, Bool.true_and]
  by_cases h1 : k < 32 * j
  · simp [h1, show ¬ 32 * j ≤ k by omega]
  · by_cases h2 : k - 32 * j < 32
    · simp [h1, h2, show 32 * j ≤ k by omega, show k < 32 * j + 32 by omega,
        show k - 32 * j < 256 by omega]
    · simp [h1, h2, show ¬ k < 32 * j + 32 by omega, BitVec.getLsbD_of_ge w (k - 32 * j) (by omega)]

theorem getWord_setWord_self (v : FWord) {j : Nat} (w : Word) (hj : j < 8) :
    getWord (setWord v j w) j = w := by
  apply BitVec.eq_of_getLsbD_eq
  intro i hi
  rw [getWord, BitVec.getLsbD_extractLsb', getLsbD_setWord _ _ _ _ (by omega),
    if_pos (by omega), show 32 * j + i - 32 * j = i by omega]
  simp [hi]

theorem getWord_setWord_ne (v : FWord) {j k : Nat} (w : Word) (hk : k < 8) (h : k ≠ j) :
    getWord (setWord v j w) k = getWord v k := by
  apply BitVec.eq_of_getLsbD_eq
  intro i hi
  rw [getWord, BitVec.getLsbD_extractLsb', getLsbD_setWord _ _ _ _ (by omega),
    if_neg (by omega), getWord, BitVec.getLsbD_extractLsb']

/-- Two register contents with the same eight words are equal (R33). -/
theorem eq_of_getWord_eq {v v' : FWord} (h : ∀ j < 8, getWord v j = getWord v' j) : v = v' := by
  apply BitVec.eq_of_getLsbD_eq
  intro i hi
  have := congrArg (fun w => w.getLsbD (i % 32)) (h (i / 32) (by omega))
  simpa [getWord, BitVec.getLsbD_extractLsb', Nat.mod_lt, show 32 * (i / 32) + i % 32 = i by omega]
    using this

/-- The moves to come play no part in what a host write does to the block. -/
theorem writeWord_turns (s : State) (ts : List Turn) (off : Nat) (v : Word) :
    writeWord { s with turns := ts } off v = { writeWord s off v with turns := ts } := by
  unfold writeWord
  cases targetOf off <;>
    simp only [writeCtrl, writeCmd, writeRegs, State.clearStatus, State.resetBlock, State.accept,
      State.acceptWith, State.dropWrite] <;> split <;> rfl

/-- Everything a host write of a whole aligned word can do (R97, R21, R22, R73). -/
theorem writeWord_cases (s : State) {off : Nat} (v : Word) (h4 : off % 4 = 0) (hlt : off < 0x1000) :
    (off = 0x008 ∧ v.getLsbD 1 = true ∧ writeWord s off v = s.resetBlock) ∨
    (off = 0x008 ∧ v.getLsbD 1 = false ∧ writeWord s off v = { s with ie := v.getLsbD 0 }) ∨
    (off = 0x00C ∧ writeWord s off v = s.clearStatus v) ∨
    (off = 0x010 ∧ s.busy = false ∧ writeWord s off v = s.accept v) ∨
    ((off = 0x010 ∨ isRegisterWord off) ∧ s.busy = true ∧ writeWord s off v = s.dropWrite) ∨
    (isRegisterWord off ∧ s.busy = false ∧ ∃ r, writeWord s off v = { s with regs := r }) ∨
    ((off = 0x000 ∨ off = 0x004 ∨ isReservedWord off) ∧ writeWord s off v = s) := by
  rcases offset_cases h4 hlt with rfl | rfl | rfl | rfl | rfl | h | h
  · exact .inr (.inr (.inr (.inr (.inr (.inr ⟨.inl rfl, rfl⟩)))))
  · exact .inr (.inr (.inr (.inr (.inr (.inr ⟨.inr (.inl rfl), rfl⟩)))))
  · have e : writeWord s 0x008 v = writeCtrl s v := rfl
    cases hv : v.getLsbD 1
    · exact .inr (.inl ⟨rfl, rfl, by rw [e, writeCtrl, hv]; rfl⟩)
    · exact .inl ⟨rfl, rfl, by rw [e, writeCtrl, hv]; rfl⟩
  · exact .inr (.inr (.inl ⟨rfl, rfl⟩))
  · have e : writeWord s 0x010 v = writeCmd s v := rfl
    cases hb : s.busy
    · exact .inr (.inr (.inr (.inl ⟨rfl, rfl, by rw [e, writeCmd, hb]; rfl⟩)))
    · exact .inr (.inr (.inr (.inr (.inl ⟨.inl rfl, rfl, by rw [e, writeCmd, hb]; rfl⟩))))
  · have hw : ∃ r, writeWord s off v = writeRegs s r := by
      rcases targetOf_register h with ⟨i, j, -, -, ht, -⟩ | ⟨i, j, -, -, ⟨ht, -⟩ | ⟨ht, -⟩⟩ | ⟨i, -, ht, -⟩ <;>
        exact ⟨_, by rw [writeWord, ht]⟩
    obtain ⟨r, hr⟩ := hw
    cases hb : s.busy
    · exact .inr (.inr (.inr (.inr (.inr (.inl ⟨h, rfl, r, by simp [hr, writeRegs, hb]⟩)))))
    · exact .inr (.inr (.inr (.inr (.inl ⟨.inr h, rfl, by simp [hr, writeRegs, hb]⟩))))
  · exact .inr (.inr (.inr (.inr (.inr (.inr ⟨.inr (.inr h), by rw [writeWord, targetOf_reserved h]⟩)))))

end Sys2Proof.Machine
end

