-- ==== Sys2Proof/Laws/Step.lean ====
section
/-! SUPPORT. What `exec`, the engine and `step` can do, each said once. -/

namespace Sys2Proof.Machine

/-- The outcome of a command on the registers its body reads. -/
def outcome (i : Instr) (S : RegFiles) : Result :=
  if i.wellFormed then
    match i with
    | .nop => nopBody
    | .fadd d a b m => faddBody d a b m S
    | .fsub d a b m => fsubBody d a b m S
    | .fmul d a b m => fmulBody d a b m S
    | .finv d a m => finvBody d a m S
    | .fred d a m => fredBody d a m S
    | .padd d a b => paddBody d a b S
    | .pdbl d a => pdblBody d a S
    | .pmul d a b => pmulBody d a b S
    | .pchk a => pchkBody a S
  else .error .illegal

/-- Running a command completes it with its outcome, and does nothing else. -/
theorem exec_eq (i : Instr) (s : State) : exec i s = .next (s.complete (outcome i s.operands)) := by
  cases i <;> rfl

/-- The outcome of a command word: R74's exec(w, S). -/
def wordOutcome (w : Word) (S : RegFiles) : Result :=
  match decode w with
  | .instr i => outcome i S
  | .rejected _ => .error .illegal

theorem runWord_eq (w : Word) (s : State) :
    runWord w s = .next (s.complete (wordOutcome w s.operands)) := by
  unfold runWord wordOutcome
  cases decode w with
  | instr i => exact exec_eq i s
  | rejected why => rfl

/-- Everything an engine turn can do. -/
theorem engineTurn_cases (s : State) :
    (∃ l, s.busy = true ∧ s.latch = some l ∧ l.remaining ≤ 1 ∧
      engineTurn s = .next (s.complete (wordOutcome l.word l.snapshot))) ∨
    (∃ l, s.busy = true ∧ s.latch = some l ∧ 1 < l.remaining ∧
      engineTurn s = .next { s with latch := some { l with remaining := l.remaining - 1 } }) ∨
    ((s.busy = false ∨ s.latch = none) ∧ engineTurn s = .next s) := by
  unfold engineTurn
  cases hb : s.busy with
  | false => exact .inr (.inr ⟨.inl rfl, rfl⟩)
  | true =>
    cases hl : s.latch with
    | none => exact .inr (.inr ⟨.inr rfl, rfl⟩)
    | some l =>
      by_cases hr : l.remaining ≤ 1
      · exact .inl ⟨l, rfl, rfl, hr, by simp [hr, runWord_eq, State.operands_of_latch hl]⟩
      · exact .inr (.inl ⟨l, rfl, rfl, by omega, by simp [hr]⟩)

/-- Everything a host access within the window can do (R35, R37). -/
theorem busAccess_cases (a : Access) (s : State) (hoff : a.off < 0x1000) :
    (a.wholeWord = false ∧ busAccess a s = .next { s with response := .busError }) ∨
    (a.wholeWord = true ∧ a.kind = .read ∧
      busAccess a s = .next { s with response := .data (readWord s a.off) }) ∨
    ∃ v, a.wholeWord = true ∧ a.kind = .write v ∧
      busAccess a s = .next { writeWord s a.off v with response := .accepted } := by
  have hn : ¬ Config.windowBytes ≤ a.off := by simpa [Config.windowBytes] using hoff
  unfold busAccess
  rw [if_neg hn]
  cases hw : a.wholeWord with
  | false => simp
  | true => cases hk : a.kind <;> simp

/-- An access as a whole aligned word is one of the host's primitives (R12). -/
theorem access_eq_of_wholeWord {a : Access} (h : a.wholeWord = true) :
    a.off % 4 = 0 ∧ a = ⟨a.off, .w32, a.kind⟩ := by
  obtain ⟨off, width, kind⟩ := a
  simp only [Access.wholeWord, Bool.and_eq_true, beq_iff_eq] at h
  obtain ⟨rfl, h4⟩ := h
  exact ⟨h4, rfl⟩

/-- Everything a step that gives a next state can do. -/
theorem step_cases {s t : State} (h : step s = .next t) :
    (∃ l, s.completesNow ∧ s.latch = some l ∧
      t = State.complete { s with turns := s.turns.tail } (wordOutcome l.word l.snapshot)) ∨
    (∃ l, s.engineNext ∧ s.busy = true ∧ s.latch = some l ∧ 1 < l.remaining ∧
      t = { s with
        turns := s.turns.tail, latch := some { l with remaining := l.remaining - 1 } }) ∨
    (s.engineNext ∧ (s.busy = false ∨ s.latch = none) ∧ t = { s with turns := s.turns.tail }) ∨
    (∃ rest, s.turns = .hardReset :: rest ∧ t = State.resetBlock { s with turns := rest }) ∨
    (∃ off v rest, off < 0x1000 ∧ off % 4 = 0 ∧ s.turns = hostWrite off v :: rest ∧
      t = { writeWord { s with turns := rest } off v with response := .accepted }) ∨
    ∃ a rest r, s.turns = .access a :: rest ∧ t = { s with turns := rest, response := r } := by
  have engine (he : s.engineNext) (h : engineTurn { s with turns := s.turns.tail } = .next t) :
      (∃ l, s.completesNow ∧ s.latch = some l ∧
        t = State.complete { s with turns := s.turns.tail } (wordOutcome l.word l.snapshot)) ∨
      (∃ l, s.engineNext ∧ s.busy = true ∧ s.latch = some l ∧ 1 < l.remaining ∧
        t = { s with
          turns := s.turns.tail, latch := some { l with remaining := l.remaining - 1 } }) ∨
      (s.engineNext ∧ (s.busy = false ∨ s.latch = none) ∧ t = { s with turns := s.turns.tail }) := by
    rcases engineTurn_cases { s with turns := s.turns.tail } with
      ⟨l, hb, hl, hr, e⟩ | ⟨l, hb, hl, hr, e⟩ | ⟨hb, e⟩
    · exact .inl ⟨l, ⟨he, hb, l, hl, hr⟩, hl, by rw [e] at h; cases h; rfl⟩
    · exact .inr (.inl ⟨l, he, hb, hl, hr, by rw [e] at h; cases h; rfl⟩)
    · exact .inr (.inr ⟨he, hb, by rw [e] at h; cases h; rfl⟩)
  unfold step at h
  split at h
  next ht =>
    have hs : { s with turns := s.turns.tail } = s := by cases s; cases ht; rfl
    rcases engine (.inl ht) (by rwa [hs]) with h | h | h
    · exact .inl h
    · exact .inr (.inl h)
    · exact .inr (.inr (.inl h))
  next rest ht =>
    rcases engine (.inr ⟨rest, ht⟩) (by rwa [ht]) with h | h | h
    · exact .inl h
    · exact .inr (.inl h)
    · exact .inr (.inr (.inl h))
  next a rest ht =>
    by_cases hoff : a.off < 0x1000
    · rcases busAccess_cases a { s with turns := rest } hoff with ⟨-, e⟩ | ⟨-, -, e⟩ | ⟨v, hw, hk, e⟩
      · rw [e] at h
        cases h
        exact .inr (.inr (.inr (.inr (.inr ⟨a, rest, _, ht, rfl⟩))))
      · rw [e] at h
        cases h
        exact .inr (.inr (.inr (.inr (.inr ⟨a, rest, _, ht, rfl⟩))))
      · rw [e] at h
        cases h
        obtain ⟨h4, ha⟩ := access_eq_of_wholeWord hw
        rw [hk] at ha
        exact .inr (.inr (.inr (.inr (.inl ⟨a.off, v, rest, hoff, h4, by rw [ht, ha]; rfl, rfl⟩))))
    · have hle : Config.windowBytes ≤ a.off := by simpa [Config.windowBytes] using hoff
      simp [busAccess, hle] at h
  next rest ht =>
    cases h
    exact .inr (.inr (.inr (.inl ⟨rest, ht, rfl⟩)))

end Sys2Proof.Machine
end

