-- ==== Sys2Proof/Tests/Slice0.lean ====
section
/-! SUPPORT. The model's own tests: well-formedness, decoding, one small step for each command and for the
bus, and a witness for the hypotheses of each statement. Expected values are the spec's own, from
30_encoding.md and 95_test_vectors.md; the vector is named where one is used. -/

-- Kernel evaluations one after another: waiting side by side, they would hold a thread each.
set_option Elab.async false

namespace Sys2Proof.Tests

open Sys2Proof.Machine

/-! ## Small states -/

/-- The reset state with some registers loaded. -/
def loaded (fs : List (RegField × Nat)) (ps : List (RegField × PointReg)) : State :=
  { State.reset with
    regs := ps.foldl (fun r x => r.setP x.1 x.2)
      (fs.foldl (fun r x => r.setF x.1 (BitVec.ofNat 256 x.2)) RegFiles.reset) }

/-- A finite point as a register holds it. -/
def fin (x y : Nat) : PointReg := ⟨BitVec.ofNat 256 x, BitVec.ofNat 256 y, false⟩

/-- G, 2G, 3G and -G (95_test_vectors.md, named values). -/
def pG : PointReg := fin Config.curveGx Config.curveGy
def p2G : PointReg :=
  fin 0xC6047F9441ED7D6D3045406E95C07CD85C778E4B8CEF3CA7ABAC09B95C709EE5
    0x1AE168FEA63DC339A3C58419466CEAEEF7F632653266D0E1236431A950CFE52A
def p3G : PointReg :=
  fin 0xF9308A019258C31049344F85F89D5229B531C845836F99B08601F113BCE036F9
    0x388F7B0F632DE8140FE337E62A37F3566500A99934C2231B6CB9FD7584B8E672
def pNegG : PointReg :=
  fin Config.curveGx 0xB7C52588D95C3B9AA25B0403F1EEF75702E84BB7597AABE663B82F6F04EF2777

/-- G as a point value. -/
def G : Point := .affine Config.curveGx Config.curveGy

/-- The step that completes the command word w on the registers of s. -/
def run (s : State) (w : Nat) : Option State :=
  match step (s.withFetchWord 32 w) with
  | .next t => some t
  | _ => none

/-- F[i] and STATUS after the command. -/
def fieldAfter (s : State) (w : Nat) (i : RegField) : Option (Nat × Word) :=
  (run s w).map fun t => ((t.regs.getF i).toNat, t.statusWord)

/-- P[i] and STATUS after the command. -/
def pointAfter (s : State) (w : Nat) (i : RegField) : Option (PointReg × Word) :=
  (run s w).map fun t => (t.regs.getP i, t.statusWord)

/-- The state after one host move. -/
def after (s : State) (m : Turn) : Option State :=
  match step { s with turns := [m] } with
  | .next t => some t
  | _ => none

/-- A block busy with the command word w, `cycles` cycles to run. -/
def busyWith (s : State) (w : Word) (cycles : Nat) : State := s.acceptWith w cycles

/-! ## Well-formedness: each check refuses a term (R46) -/

theorem test_illFormed_fadd :
    (Instr.fadd 8#4 0#4 0#4 .p).wellFormed = false ∧
      (Instr.fadd 0#4 8#4 0#4 .p).wellFormed = false ∧
      (Instr.fadd 0#4 0#4 8#4 .p).wellFormed = false := by decide

theorem test_illFormed_fsub :
    (Instr.fsub 8#4 0#4 0#4 .p).wellFormed = false ∧
      (Instr.fsub 0#4 8#4 0#4 .p).wellFormed = false ∧
      (Instr.fsub 0#4 0#4 8#4 .p).wellFormed = false := by decide

theorem test_illFormed_fmul :
    (Instr.fmul 8#4 0#4 0#4 .p).wellFormed = false ∧
      (Instr.fmul 0#4 8#4 0#4 .p).wellFormed = false ∧
      (Instr.fmul 0#4 0#4 8#4 .p).wellFormed = false := by decide

theorem test_illFormed_finv :
    (Instr.finv 8#4 0#4 .p).wellFormed = false ∧
      (Instr.finv 0#4 8#4 .p).wellFormed = false := by decide

theorem test_illFormed_fred :
    (Instr.fred 8#4 0#4 .p).wellFormed = false ∧
      (Instr.fred 0#4 8#4 .p).wellFormed = false := by decide

theorem test_illFormed_padd :
    (Instr.padd 4#4 0#4 0#4).wellFormed = false ∧
      (Instr.padd 0#4 4#4 0#4).wellFormed = false ∧
      (Instr.padd 0#4 0#4 4#4).wellFormed = false := by decide

theorem test_illFormed_pdbl :
    (Instr.pdbl 4#4 0#4).wellFormed = false ∧
      (Instr.pdbl 0#4 4#4).wellFormed = false := by decide

theorem test_illFormed_pmul :
    (Instr.pmul 4#4 0#4 0#4).wellFormed = false ∧
      (Instr.pmul 0#4 8#4 0#4).wellFormed = false ∧
      (Instr.pmul 0#4 0#4 4#4).wellFormed = false := by decide

theorem test_illFormed_pchk :
    (Instr.pchk 4#4).wellFormed = false := by decide

/-- The largest register of each class is inside it. -/
theorem test_wellFormed_bounds :
    (Instr.fadd 7#4 7#4 7#4 .n).wellFormed = true ∧ (Instr.padd 3#4 3#4 3#4).wellFormed = true ∧
      (Instr.pmul 3#4 7#4 3#4).wellFormed = true := by decide

/-! ## Decoding: words written out from R45 and R47 -/

/-- 00000000: fields RSV M B A D OP = 0000 0000 0000 0000 0000 0000 0000 0000. -/
theorem test_decode_nop : decode 0x00000000#32 = .instr .nop := by decide

/-- V-FADD-1: fields RSV M B A D OP = 00000000000 0 0001 0000 0010 00000001. -/
theorem test_decode_fadd_p : decode 0x00010201#32 = .instr (.fadd 2#4 0#4 1#4 .p) := by decide

/-- V-FSUB-4: fields RSV M B A D OP = 00000000000 1 0001 0000 0010 00000010. -/
theorem test_decode_fsub_n : decode 0x00110202#32 = .instr (.fsub 2#4 0#4 1#4 .n) := by decide

/-- R50 example: fields RSV M B A D OP = 00000000000 1 0001 0000 0010 00000011. -/
theorem test_decode_fmul_n : decode 0x00110203#32 = .instr (.fmul 2#4 0#4 1#4 .n) := by decide

/-- V-FINV-5: fields RSV M B A D OP = 00000000000 1 0000 0000 0010 00000100. -/
theorem test_decode_finv_n : decode 0x00100204#32 = .instr (.finv 2#4 0#4 .n) := by decide

/-- 0x00001405: fields RSV M B A D OP = 00000000000 0 0000 0001 0100 00000101. -/
theorem test_decode_fred_p : decode 0x00001405#32 = .instr (.fred 4#4 1#4 .p) := by decide

/-- V-PADD-1: fields RSV M B A D OP = 00000000000 0 0001 0000 0010 00010000. -/
theorem test_decode_padd : decode 0x00010210#32 = .instr (.padd 2#4 0#4 1#4) := by decide

/-- V-PDBL-1: fields RSV M B A D OP = 00000000000 0 0000 0000 0001 00010001. -/
theorem test_decode_pdbl : decode 0x00000111#32 = .instr (.pdbl 1#4 0#4) := by decide

/-- 0x00025112, program 3: fields RSV M B A D OP = 00000000000 0 0010 0101 0001 00010010. -/
theorem test_decode_pmul : decode 0x00025112#32 = .instr (.pmul 1#4 5#4 2#4) := by decide

/-- 0x00003013: fields RSV M B A D OP = 00000000000 0 0000 0011 0000 00010011. -/
theorem test_decode_pchk : decode 0x00003013#32 = .instr (.pchk 3#4) := by decide

/-- The illegal words of 95_test_vectors.md, all of them. -/
theorem test_decode_illegal :
    [0x00000100#32, 0x00000006#32, 0x000000FF#32, 0x00000801#32, 0x80000001#32, 0x00200001#32,
      0x00010004#32, 0x00100010#32, 0x00000410#32, 0x00008012#32, 0x00010011#32, 0x00000113#32].all
        (fun w => !legal w && (match decode w with | .rejected _ => true | .instr _ => false)) = true := by
  decide

/-- The encoder against R50's example. -/
theorem test_encode_example : encode (.fmul 2#4 0#4 1#4 .n) = 0x00110203#32 := by decide

theorem test_decodeTableWord :
    decodeTableWord 32 0x00110203 = some (.fmul 2#4 0#4 1#4 .n) ∧ decodeTableWord 32 0x06 = none := by
  decide

/-! ## Commands: one completion each (95_test_vectors.md, L2) -/

/-- V-NOP-1. -/
theorem test_nop :
    fieldAfter (loaded [(2#4, 5)] [])
      0x00000000 2#4 = some (5, 0x00000002#32) := by decide +kernel

/-- V-FADD-4: the exact sum exceeds 2^256. -/
theorem test_fadd_wraps :
    fieldAfter (loaded [(0#4, 0xfffffffffffffffffffffffffffffffffffffffffffffffffffffffefffffc2e), (1#4, 0xfffffffffffffffffffffffffffffffffffffffffffffffffffffffefffffc2e)] [])
      0x00010201 2#4 = some (0xfffffffffffffffffffffffffffffffffffffffffffffffffffffffefffffc2d, 0x00000002#32) := by decide +kernel

/-- V-FADD-8. -/
theorem test_fadd_range :
    fieldAfter (loaded [(0#4, 1), (1#4, 0xfffffffffffffffffffffffffffffffffffffffffffffffffffffffefffffc2f), (2#4, 9)] [])
      0x00010201 2#4 = some (9, 0x00000206#32) := by decide +kernel

/-- V-FSUB-1. -/
theorem test_fsub_negative :
    fieldAfter (loaded [(0#4, 3), (1#4, 5)] [])
      0x00010202 2#4 = some (0xfffffffffffffffffffffffffffffffffffffffffffffffffffffffefffffc2d, 0x00000002#32) := by decide +kernel

/-- V-FSUB-2. -/
theorem test_fsub_zero :
    fieldAfter (loaded [(0#4, 5), (1#4, 5)] [])
      0x00010202 2#4 = some (0, 0x00000012#32) := by decide +kernel

/-- V-FMUL-5. -/
theorem test_fmul_wide :
    fieldAfter (loaded [(0#4, Config.curveGx), (1#4, Config.curveGy)] [])
      0x00010203 2#4 = some (0xfd3dc529c6eb60fb9d166034cf3c1a5a72324aa9dfd3428a56d7e1ce0179fd9b, 0x00000002#32) := by decide +kernel

/-- V-FMUL-7: A is reduced mod p and not mod n. -/
theorem test_fmul_range_n :
    fieldAfter (loaded [(0#4, 0xfffffffffffffffffffffffffffffffffffffffffffffffffffffffefffffc2e), (1#4, 2)] [])
      0x00110203 2#4 = some (0, 0x00000206#32) := by decide +kernel

/-- V-FINV-5. -/
theorem test_finv_n :
    fieldAfter (loaded [(0#4, 2)] [])
      0x00100204 2#4 = some (0x7fffffffffffffffffffffffffffffff5d576e7357a4501ddfe92f46681b20a1, 0x00000002#32) := by decide +kernel

/-- V-FINV-6. -/
theorem test_finv_domain :
    fieldAfter (loaded [(0#4, 0), (2#4, 7)] [])
      0x00000204 2#4 = some (7, 0x00000406#32) := by decide +kernel

/-- V-FRED-2. -/
theorem test_fred_n :
    fieldAfter (loaded [(0#4, 0xffffffffffffffffffffffffffffffffffffffffffffffffffffffffffffffff)] [])
      0x00100205 2#4 = some (0x14551231950b75fc4402da1732fc9bebe, 0x00000002#32) := by decide +kernel

/-- V-FRED-3. -/
theorem test_fred_zero :
    fieldAfter (loaded [(0#4, 0xfffffffffffffffffffffffffffffffffffffffffffffffffffffffefffffc2f)] [])
      0x00000205 2#4 = some (0, 0x00000012#32) := by decide +kernel

/-- V-PADD-1: G + 2G = 3G. -/
theorem test_padd :
    pointAfter (loaded [] [(0#4, pG), (1#4, p2G)])
      0x00010210 2#4 = some (p3G, 0x00000002#32) := by decide +kernel

/-- V-PADD-11: A is checked before B. -/
theorem test_padd_order :
    pointAfter (loaded [] [(0#4, fin 1 1), (1#4, fin Config.curveP 0)])
      0x00010210 2#4 = some (⟨0#256, 0#256, true⟩, 0x00000306#32) := by decide +kernel

/-- V-PDBL-1. -/
theorem test_pdbl :
    pointAfter (loaded [] [(0#4, pG)])
      0x00000111 1#4 = some (p2G, 0x00000002#32) := by decide +kernel

/-- V-PDBL-5. -/
theorem test_pdbl_curve :
    pointAfter (loaded [] [(0#4, fin Config.curveGx 0xfffffffffffffffffffffffffffffffffffffffffffffffffffffffefffffc2e)])
      0x00000111 1#4 = some (⟨0#256, 0#256, true⟩, 0x00000306#32) := by decide +kernel

/-- V-PMUL-4. -/
theorem test_pmul :
    pointAfter (loaded [(0#4, 3)] [(0#4, pG)])
      0x00000112 1#4 = some (p3G, 0x00000002#32) := by decide +kernel

/-- V-PMUL-6: k = n gives O. -/
theorem test_pmul_n :
    pointAfter (loaded [(0#4, 0xfffffffffffffffffffffffffffffffebaaedce6af48a03bbfd25e8cd0364141)] [(0#4, pG)])
      0x00000112 1#4 = some (⟨0#256, 0#256, true⟩, 0x00000012#32) := by decide +kernel

/-- V-PCHK-6. -/
theorem test_pchk_negG :
    pointAfter (loaded [] [(0#4, pNegG)])
      0x00000013 0#4 = some (pNegG, 0x00000002#32) := by decide +kernel

/-- V-PCHK-5: RANGE before CURVE. -/
theorem test_pchk_range :
    pointAfter (loaded [] [(0#4, fin (Config.curveP + 5) Config.curveGy)])
      0x00000013 0#4 = some (fin (Config.curveP + 5) Config.curveGy, 0x00000206#32) := by decide +kernel

/-- The two inversion algorithms on an operand of Program 1 (step 9). -/
theorem test_euclidInv :
    euclidInv Config.curveN 3 = 0xAAAAAAAAAAAAAAAAAAAAAAAAAAAAAAA9D1C9E899CA306AD27FE1945DE0242B81 := by
  decide +kernel

/-- V-PMUL-3 by each of the other algorithms: 2G. -/
theorem test_scalar_algorithms :
    [lsbLoop 2 2 0 .infinity G, scalarMulBy 4 .window 2 G, scalarMulBy 4 .ladder 2 G].all
      (fun R => R == .ok (.affine 0xC6047F9441ED7D6D3045406E95C07CD85C778E4B8CEF3CA7ABAC09B95C709EE5
        0x1AE168FEA63DC339A3C58419466CEAEEF7F632653266D0E1236431A950CFE52A)) = true := by
  decide +kernel

/-- 0x000000FF written to CMD completes with ILLEGAL. -/
theorem test_illegal_word :
    (run State.reset 0xFF).map State.statusWord = some 0x00000106#32 := by decide +kernel

/-! ## The bus and the life of a command (95_test_vectors.md, V-LC) -/

/-- V-LC-1 and V-LC-3. -/
theorem test_id :
    (after State.reset (hostRead 0)).map (·.response) = some (.data 0x256B0100#32) ∧
      (after State.reset (hostWrite 0 0x12345678#32)).map (readWord · 0) = some 0x256B0100#32 := by
  decide +kernel

/-- V-LC-2: PARAM for INV_ALG = 0 and SMUL_ALG = 3 is 0x486. -/
theorem test_param : 0#20 ++ 4#4 ++ 8#4 ++ smulAlgBits .ladder ++ invAlgBit .fermat = 0x00000486#32 := by
  decide

/-- V-LC-6: only bit 0 of the INF word is INF. -/
theorem test_inf_word :
    (after State.reset (hostWrite 0x240 0xFFFFFFFE#32)).map (readWord · 0x240) = some 0#32 ∧
      (after State.reset (hostWrite 0x240 0xFFFFFFFF#32)).map (readWord · 0x240) = some 1#32 := by
  decide +kernel

/-- V-LC-16: word 7 is the most significant. -/
theorem test_word_order :
    (after (loaded [(0#4, 5)] []) (hostWrite 0x11C 0x80000000#32)).map (fun s => (s.regs.getF 0#4).toNat) =
      some 0x8000000000000000000000000000000000000000000000000000000000000005 := by decide +kernel

/-- V-LC-7: DONE is cleared by a 1, Z is not. -/
theorem test_status_w1c :
    (after { State.reset with done := true, z := true } (hostWrite 0x00C 0xFFFFFFFF#32)).map
      State.statusWord = some 0x00000010#32 := by decide +kernel

/-- V-LC-8: a 1 in ERR clears ERR and ERRCODE, and keeps DONE. -/
theorem test_status_err :
    (after { State.reset with done := true, err := true, errcode := 4#4 } (hostWrite 0x00C 4#32)).map
      State.statusWord = some 0x00000002#32 := by decide +kernel

/-- V-LC-9: acceptance clears ERR and ERRCODE. -/
theorem test_accept_status :
    (after { State.reset with done := true, err := true, errcode := 4#4 } (hostWrite 0x010 0#32)).map
      State.statusWord = some 0x00000001#32 := by decide +kernel

/-- V-LC-14: a write of the INF word while busy is dropped and sets OVR; one to a reserved word is not. -/
theorem test_busy_writes :
    (after (busyWith (loaded [(0#4, 5)] []) 0x00000201#32 2) (hostWrite 0x240 0#32)).map
        (fun s => (s.statusWord, (s.regs.getP 0#4).inf)) = some (0x00000009#32, true) ∧
      (after (busyWith (loaded [(0#4, 5)] []) 0x00000201#32 2) (hostWrite 0x244 1#32)).map
        State.statusWord = some 0x00000001#32 := by decide +kernel

/-- V-LC-13: a soft reset while busy. -/
theorem test_soft_reset :
    (after (busyWith (loaded [(0#4, 5)] []) 0x00000201#32 2) (hostWrite 0x008 2#32)).map
      (fun s => (s.statusWord, s.regs.getF 0#4, s.latch)) = some (0#32, 0#256, none) := by decide +kernel

/-- V-LC-17: a 16-bit write to 0x100 and a 32-bit write to 0x102. -/
theorem test_bus_error :
    step { State.reset with turns := [.access ⟨0x100, .w16, .write 1#32⟩] } =
        .next { State.reset with response := .busError } ∧
      step { State.reset with turns := [.access ⟨0x102, .w32, .write 1#32⟩] } =
        .next { State.reset with response := .busError } := ⟨rfl, rfl⟩

/-- V-LC-11: irq follows IE while DONE = 1. -/
theorem test_irq :
    (after { State.reset with done := true } (hostWrite 0x008 1#32)).map State.irq = some true ∧
      (after { State.reset with done := true, ie := true } (hostWrite 0x008 0#32)).map
        (fun s => (s.irq, s.done)) = some (false, true) := by decide +kernel

/-- An engine turn counts a cycle before the last one. -/
theorem test_engine_counts :
    (after (busyWith State.reset 0#32 2) .engine).map (fun s => s.latch.map (·.remaining)) =
      some (some 1) := by decide +kernel

/-- R34: word 0 of the hash of program 3 is 0xB0F00A08 and word 7 is 0x9F86D081. -/
def programHash : Vector (BitVec 8) 32 :=
  #v[0x9F, 0x86, 0xD0, 0x81, 0x88, 0x4C, 0x7D, 0x65, 0x9A, 0x2F, 0xEA, 0xA0, 0xC5, 0x5A, 0xD0, 0x15,
    0xA3, 0xBF, 0x4F, 0x1B, 0x2B, 0x0B, 0x82, 0x2C, 0xD1, 0x5D, 0x6C, 0x15, 0xB0, 0xF0, 0x0A, 0x08]

theorem test_hash_words :
    hashWord programHash 0 = 0xB0F00A08#32 ∧ hashWord programHash 7 = 0x9F86D081#32 := by decide +kernel

/-! ## Witnesses: for each statement with hypotheses, a state and operands that meet them all together, one for
each clause, at the edge of its range -/

/-- G, -G and O are valid points. -/
theorem witness_valid_points :
    G.Valid ∧ (Point.affine Config.curveGx
      0xB7C52588D95C3B9AA25B0403F1EEF75702E84BB7597AABE663B82F6F04EF2777).Valid ∧ Point.infinity.Valid := by
  refine ⟨⟨by decide, by decide, by decide +kernel⟩, ⟨by decide, by decide, by decide +kernel⟩, trivial⟩

theorem witness_DecodeEncodeRoundTrip :
    (Instr.fadd 7#4 7#4 7#4 .n).wellFormed = true ∧ (Instr.pmul 3#4 7#4 3#4).wellFormed = true := by decide

theorem witness_EncodeDecodeRoundTrip :
    decode 0x00177701#32 = .instr (.fadd 7#4 7#4 7#4 .n) ∧
      decode 0x00037312#32 = .instr (.pmul 3#4 7#4 3#4) := by decide

/-- Both sides of R48 occur. -/
theorem witness_LegalWordsMatchExactlyOneRow :
    legal 0x00177701#32 = true ∧ legal 0x00178701#32 = false ∧ ∃ i, decode 0x00177701#32 = .instr i :=
  ⟨by decide, by decide, .fadd 7#4 7#4 7#4 .n, by decide⟩

theorem witness_AssemblerRoundTrip :
    (Instr.fmul 7#4 7#4 7#4 .n).wellFormed = true ∧
      (⟨"fred", none, [.f 7#4, .f 7#4]⟩ : AsmLine).mnemonic ∈ ["fadd", "fsub", "fmul", "finv", "fred"] ∧
      (⟨"fred", none, [.f 7#4, .f 7#4]⟩ : AsmLine).suffix = none ∧
      (⟨"fred", none, [.f 7#4, .f 7#4]⟩ : AsmLine).operands ∈
        [[AsmReg.f 7#4, .f 7#4, .f 7#4], [.f 7#4, .f 7#4]] ∧
      (⟨"padd", some .n, []⟩ : AsmLine).mnemonic ∈ ["nop", "padd", "pdbl", "pmul", "pchk"] ∧
      (⟨"padd", some .n, []⟩ : AsmLine).suffix ≠ none := by decide

theorem witness_PseudoInstructionsExpand : isFieldReg 7#4 = true ∧ isFieldReg 0#4 = true := by decide

theorem witness_HardwareResetState :
    ∃ (s : State) (rest : List Turn), s.turns = .hardReset :: rest ∧
      (isFieldReg 7#4 = true ∧ isPointReg 3#4 = true) :=
  ⟨{ busyWith (loaded [(7#4, 5)] [(3#4, pG)]) 0x201#32 2 with turns := [.hardReset] }, [], rfl, by decide⟩

theorem witness_SoftResetState :
    ∃ (s : State) (v : Word), s.hostWrites 0x008 v ∧ v.getLsbD 1 = true ∧ s.busy = true :=
  ⟨{ busyWith State.reset 0#32 2 with turns := [hostWrite 0x008 3#32] }, 3#32, ⟨[], rfl⟩, by decide, rfl⟩

/-- Both values of SRST, and both values of each W1C bit. -/
theorem witness_CtrlReadAndWrite_StatusReadAndWrite :
    (1#32).getLsbD 1 = false ∧ (2#32).getLsbD 1 = true ∧
      (0xE#32).getLsbD 1 = true ∧ (0xE#32).getLsbD 2 = true ∧ (0xE#32).getLsbD 3 = true ∧
      (0#32).getLsbD 1 = false ∧ (0#32).getLsbD 2 = false ∧ (0#32).getLsbD 3 = false := by decide

theorem witness_ErrorReturnClearsStatus : State.reset.busy = false := rfl

theorem witness_IrqFollowsEnableAndDone :
    ∃ s u : State, s.done = true ∧ s.ie = true ∧ s.busy = false ∧ (2#32).getLsbD 1 = true ∧
      u.completesNow ∧ u.ie = true :=
  ⟨{ State.reset with done := true, ie := true }, { busyWith State.reset 0#32 1 with ie := true },
    rfl, rfl, rfl, by decide, ⟨.inl rfl, rfl, _, rfl, by decide⟩, rfl⟩

theorem witness_FieldWordMap_PointWordMap :
    isFieldReg 7#4 = true ∧ isPointReg 3#4 = true ∧ 7 < 8 ∧ 17 ≤ 17 ∧ 31 < 32 ∧
      State.reset.busy = false := by decide

/-- The first and the last offset of each unlisted range, and the last INF word beside them. -/
theorem witness_ReservedReadsZeroIgnoresWrites :
    isReservedWord 0x014 ∧ isReservedWord 0x0FC ∧ isReservedWord 0x244 ∧ isReservedWord 0x3FC ∧
      isReservedWord 0x400 ∧ isReservedWord 0xFFC ∧ ¬ isReservedWord 0x3C0 ∧ isPointReg 3#4 = true := by
  decide

theorem witness_BusErrorChangesNothing :
    ∃ (s : State) (a b : Access), s.turns = [.access a, .access b] ∧ a.off < 0x1000 ∧ b.off < 0x1000 ∧
      a.width ≠ .w32 ∧ b.off % 4 ≠ 0 :=
  ⟨{ State.reset with
      turns := [.access ⟨0xFFC, .w64, .read⟩, .access ⟨0xFFF, .w32, .write 1#32⟩] },
    ⟨0xFFC, .w64, .read⟩, ⟨0xFFF, .w32, .write 1#32⟩, rfl, by decide⟩

/-- A read at the last word of the window, busy, and a write to STATUS and to an INF word. -/
theorem witness_ReadsHaveNoSideEffectsAndWritesAct :
    ∃ s u w : State, s.turns = hostRead 0xFFC :: [] ∧ 0xFFC < 0x1000 ∧ 0xFFC % 4 = 0 ∧ s.busy = true ∧
      u.turns = hostWrite 0x00C 0xE#32 :: [] ∧ 0x00C % 4 = 0 ∧ u.busy = true ∧
      w.turns = hostWrite 0x3C0 1#32 :: [] ∧ 0x3C0 % 4 = 0 ∧ w.busy = false :=
  ⟨{ busyWith State.reset 0#32 2 with turns := [hostRead 0xFFC] },
    { busyWith State.reset 0#32 2 with turns := [hostWrite 0x00C 0xE#32] },
    { State.reset with turns := [hostWrite 0x3C0 1#32] }, rfl, by decide, by decide, rfl, rfl, by decide,
    rfl, rfl, by decide, rfl⟩

/-- A busy block, and the offsets where the clauses meet: each falls under one clause only. -/
theorem witness_WritesWhileBusy :
    (busyWith State.reset 0#32 2).busy = true ∧
      (isRegisterWord 0x100 ∧ isRegisterWord 0x1FC ∧ isRegisterWord 0x200 ∧ isRegisterWord 0x240 ∧
        isRegisterWord 0x3C0) ∧
      (isReservedWord 0x014 ∧ isReservedWord 0x0FC ∧ isReservedWord 0x244 ∧ isReservedWord 0x3C4 ∧
        isReservedWord 0x400) ∧
      (¬ isRegisterWord 0x0FC ∧ ¬ isRegisterWord 0x244 ∧ ¬ isRegisterWord 0x400 ∧
        ¬ isReservedWord 0x100 ∧ ¬ isReservedWord 0x240 ∧ ¬ isReservedWord 0x010) :=
  ⟨by decide, by decide, by decide, by decide⟩

theorem witness_WritesWhileBusy_ovr :
    ∃ u t : State, step u = .next t ∧ u.ovr = true ∧ t.ovr = true :=
  ⟨{ State.reset with ovr := true, turns := [hostWrite 0x010 0#32] }, _, rfl, rfl, rfl⟩

theorem witness_LoadingAFieldRegister :
    ∃ (s u : State), isFieldReg 7#4 = true ∧ s.busy = false ∧ u.busy = false ∧
      s.turns = loadField 7#4 5#256 ++ [.engine] ∧
      u.turns = loadFieldWords 7#4 (hashWord programHash) ++ [] :=
  ⟨{ State.reset with turns := loadField 7#4 5#256 ++ [.engine] },
    { State.reset with turns := loadFieldWords 7#4 (hashWord programHash) ++ [] }, by decide, rfl, rfl,
    rfl, rfl⟩

theorem witness_AcceptanceTakesASnapshot :
    ∃ (s u : State) (w : Word), s.hostWrites 0x010 w ∧ s.busy = false ∧
      ∃ l, u.latch = some l ∧ l.snapshot = s.regs :=
  ⟨{ State.reset with turns := [hostWrite 0x010 0x201#32] }, busyWith State.reset 0x201#32 1, 0x201#32,
    ⟨[], rfl⟩, rfl, _, rfl, rfl⟩

theorem witness_StepRunsTheDecodedCommand :
    ∃ (s : State) (l : Latch) (i : Instr), s.engineNext ∧ s.busy = true ∧ s.latch = some l ∧
      l.remaining ≤ 1 ∧ decode l.word = .instr i :=
  ⟨busyWith State.reset 0x00010201#32 1, ⟨0x00010201#32, State.reset.regs, 1⟩, .fadd 2#4 0#4 1#4 .p,
    .inl rfl, rfl, rfl, by decide, by decide⟩

theorem witness_PlacedWordRunsNext : decodeTableWord 32 0x00177701 = some (.fadd 7#4 7#4 7#4 .n) := by
  decide

theorem witness_IllegalWordsCompleteWithIllegal :
    ∃ (s : State) (l : Latch), State.reset.busy = false ∧ s.completesNow ∧ s.latch = some l ∧
      legal l.word = false :=
  ⟨busyWith State.reset 0xFF#32 1, ⟨0xFF#32, State.reset.regs, 1⟩, rfl,
    ⟨.inl rfl, rfl, _, rfl, by decide⟩, rfl, by decide⟩

theorem witness_IllFormedCommandsCompleteWithIllegal : (Instr.fadd 8#4 0#4 0#4 .p).wellFormed = false := by
  decide

theorem witness_EngineCountsCycles :
    (∃ (s : State) (l : Latch), s.engineNext ∧ s.busy = true ∧ s.latch = some l ∧ 1 < l.remaining) ∧
      State.reset.engineNext ∧ State.reset.busy = false :=
  ⟨⟨busyWith State.reset 0#32 2, ⟨0#32, State.reset.regs, 2⟩, .inl rfl, rfl, rfl, by decide⟩, .inl rfl, rfl⟩

/-- A busy state that meets the invariant, with moves pending. -/
def busyState (moves : List Turn) : State := { busyWith State.reset 0x00010201#32 1 with turns := moves }

theorem busyState_inv (moves : List Turn) : (busyState moves).Inv := by
  constructor <;> simp [busyState, busyWith, State.reset, Config.maxLatency]

theorem witness_CompletionRacesTakeEitherOrder :
    (∃ (s : State) (l : Latch), s.busy = true ∧ s.latch = some l ∧ l.remaining ≤ 1 ∧
      s.turns = .engine :: hostWrite 0x010 0x13#32 :: []) ∧
    (∃ (s : State) (l : Latch), s.busy = true ∧ s.latch = some l ∧ l.remaining ≤ 1 ∧
      s.turns = hostWrite 0x010 0x13#32 :: .engine :: []) ∧
    (∃ (s : State) (l : Latch) (v : Word), s.busy = true ∧ s.latch = some l ∧ l.remaining ≤ 1 ∧
      v.getLsbD 1 = true ∧ s.turns = hostWrite 0x008 v :: .engine :: []) :=
  ⟨⟨busyState [.engine, hostWrite 0x010 0x13#32], ⟨0x00010201#32, State.reset.regs, 1⟩, rfl, rfl,
      by decide, rfl⟩,
    ⟨busyState [hostWrite 0x010 0x13#32, .engine], ⟨0x00010201#32, State.reset.regs, 1⟩, rfl, rfl,
      by decide, rfl⟩,
    ⟨busyState [hostWrite 0x008 3#32, .engine], ⟨0x00010201#32, State.reset.regs, 1⟩, 3#32, rfl, rfl,
      by decide, by decide, rfl⟩⟩

theorem witness_EveryAcceptedCommandCompletes :
    ∃ s : State, s.Inv ∧ s.busy = true ∧ Turn.hardReset ∉ s.turns ∧
      (∀ a, Turn.access a ∈ s.turns → a.off < 0x1000) ∧
      (∀ v, hostWrite 0x008 v ∈ s.turns → v.getLsbD 1 = false) ∧ s.turns ≠ [] := by
  refine ⟨busyState [hostRead 0x00C, hostWrite 0x008 1#32], busyState_inv _, rfl, by decide, ?_, ?_,
    by decide⟩
  · intro a h
    simp only [busyState, hostRead, hostWrite, List.mem_cons, List.not_mem_nil, or_false,
      Turn.access.injEq] at h
    rcases h with rfl | rfl <;> decide
  · intro v h
    simp only [busyState, hostRead, hostWrite, List.mem_cons, List.not_mem_nil, or_false,
      Turn.access.injEq, Access.mk.injEq, AccessKind.write.injEq, reduceCtorEq, and_false, false_or,
      true_and] at h
    subst h
    decide

/-- A step of a busy block that completes its command. -/
theorem witness_StepKeepsInvariant :
    ∃ s t : State, s.Inv ∧ step s = .next t ∧ t.busy = false ∧ s.busy = true := by
  have h := exec_eq (.fadd 2#4 0#4 1#4 .p) { busyState [] with turns := [] }
  exact ⟨busyState [], _, busyState_inv _, h, (State.complete_idle _ _).1, rfl⟩

theorem witness_StepNeverStops :
    (∀ a rest, (busyState [hostRead 0xFFC]).turns = .access a :: rest → a.off < 0x1000) ∧
      ∃ (s : State) (a : Access) (rest : List Turn), s.turns = .access a :: rest ∧ 0x1000 ≤ a.off := by
  refine ⟨?_, ⟨{ State.reset with turns := [hostRead 0x1000] }, _, _, rfl, by decide⟩⟩
  intro a rest h
  cases h
  decide

/-- A completion, a host write of a register word and a reset each change a register. -/
theorem witness_RegistersChangeOnlyAtTheseEvents :
    ∃ s t : State, step s = .next t ∧ t.regs ≠ s.regs :=
  ⟨{ State.reset with turns := [hostWrite 0x1FC 1#32] },
    { State.reset with regs := State.reset.regs.setF 7#4 (1#256 <<< 224), response := .accepted },
    by rfl, by decide +kernel⟩

/-- BUSY rises at an acceptance; it falls at a completion. -/
theorem witness_BusyRisesAndFallsOnlyAtTheseEvents :
    (∃ s t : State, step s = .next t ∧ s.busy = false ∧ t.busy = true) ∧
      ∃ s t : State, step s = .next t ∧ s.busy = true ∧ t.busy = false := by
  obtain ⟨s, t, -, h, hf, hb⟩ := witness_StepKeepsInvariant
  exact ⟨⟨{ State.reset with turns := [hostWrite 0x010 0#32] }, _, rfl, rfl, rfl⟩, s, t, h, hb, hf⟩

theorem witness_OvrRisesAndFallsOnlyAtTheseEvents :
    (∃ s t : State, step s = .next t ∧ s.ovr = false ∧ t.ovr = true) ∧
      ∃ s t : State, step s = .next t ∧ s.ovr = true ∧ t.ovr = false :=
  ⟨⟨busyState [hostWrite 0x010 0#32], _, rfl, rfl, rfl⟩,
    ⟨{ State.reset with ovr := true, turns := [hostWrite 0x00C 8#32] }, _, rfl, rfl, rfl⟩⟩

/-- FADD of 0 and 0 sets Z. -/
theorem witness_ZeroFlagChangesOnlyAtTheseEvents :
    ∃ s t : State, s.Inv ∧ step s = .next t ∧ t.z ≠ s.z := by
  refine ⟨busyState [], _, busyState_inv _, exec_eq (.fadd 2#4 0#4 1#4 .p) (busyState []), ?_⟩
  decide +kernel

/-- FINV of 0. -/
theorem witness_ErrorsWriteNothing :
    ∃ (s t : State) (i : Instr), s.err = false ∧ exec i s = .next t ∧ t.err = true := by
  refine ⟨State.reset, _, .finv 2#4 0#4 .p, rfl, exec_eq _ _, ?_⟩
  decide +kernel

/-- FADD into F7: the word before its first and the word of its last. -/
theorem witness_CommandFrame :
    (∃ t, exec (.fadd 7#4 0#4 1#4 .p) State.reset = .next t) ∧
      ¬ isDestinationWord (.fadd 7#4 0#4 1#4 .p) 0x1DC ∧ isDestinationWord (.fadd 7#4 0#4 1#4 .p) 0x1FC ∧
      ¬ isDestinationWord (.fadd 7#4 0#4 1#4 .p) 0x200 ∧ 0x1DC % 4 = 0 ∧ 0x1DC ≠ 0x00C :=
  ⟨⟨_, exec_eq _ _⟩, by simp [isDestinationWord, fieldOffset], by simp [isDestinationWord, fieldOffset],
    by simp [isDestinationWord, fieldOffset], by decide, by decide⟩

/-- One word for each clause, at the edge of its range. -/
theorem witness_IllegalWordsCompleteWithIllegal_fields :
    opField 0x06#32 = 0x06#8 ∧ opField 0x0F#32 = 0x0F#8 ∧ opField 0x14#32 = 0x14#8 ∧
      rsvField 0x80000000#32 ≠ 0#11 ∧
      (opField 0x00100010#32 = 0x10#8 ∧ mField 0x00100010#32 ≠ 0#1) ∧
      (opField 0x00080000#32 = 0x00#8 ∧ bField 0x00080000#32 ≠ 0#4) ∧
      (opField 0x00080001#32 = 0x01#8 ∧ (bField 0x00080001#32).toNat = 8) ∧
      (opField 0x00010005#32 = 0x05#8 ∧ (bField 0x00010005#32).toNat ≠ 0) ∧
      (opField 0x00040010#32 = 0x10#8 ∧ (bField 0x00040010#32).toNat = 4) ∧
      (opField 0x00000411#32 = 0x11#8 ∧ (dField 0x00000411#32).toNat = 4) ∧
      (opField 0x00008012#32 = 0x12#8 ∧ (aField 0x00008012#32).toNat = 8) ∧
      (opField 0x00004013#32 = 0x13#8 ∧ (aField 0x00004013#32).toNat = 4) := by decide

theorem witness_NopCompletes : opField 0x100#32 = 0#8 ∧ 0x100#32 ≠ 0#32 := by decide

/-- FADD, FSUB and FMUL: operands m - 1 and m - 1, then m in either place. -/
theorem witness_two_field_operands :
    ∃ S T U : RegFiles, (Instr.fadd 2#4 0#4 1#4 .n).wellFormed = true ∧
      (S.getF 0#4).toNat < Modulus.value .n ∧ (S.getF 1#4).toNat < Modulus.value .n ∧
      Modulus.value .n ≤ (T.getF 0#4).toNat ∧ Modulus.value .p ≤ (U.getF 1#4).toNat ∧
      (S.getF 0#4).toNat + 1 = Modulus.value .n :=
  ⟨(loaded [(0#4, Config.curveN - 1), (1#4, Config.curveN - 1)] []).regs,
    (loaded [(0#4, Config.curveN)] []).regs, (loaded [(1#4, Config.curveP)] []).regs, by decide +kernel⟩

/-- FSUB's clause for a smaller first operand. -/
theorem witness_FsubSubtractsModulo :
    ((loaded [(0#4, 3), (1#4, 5)] []).operands.getF 0#4).toNat <
      ((loaded [(0#4, 3), (1#4, 5)] []).operands.getF 1#4).toNat := by decide +kernel

/-- FINV: 1, m - 1, m and 0. -/
theorem witness_FinvInverts :
    (Instr.finv 2#4 0#4 .p).wellFormed = true ∧
      ((loaded [(0#4, 1)] []).operands.getF 0#4).toNat < Modulus.value .p ∧
      (loaded [(0#4, 1)] []).operands.getF 0#4 ≠ 0#256 ∧
      ((loaded [(0#4, Config.curveP - 1)] []).operands.getF 0#4).toNat < Modulus.value .p ∧
      Modulus.value .p ≤ ((loaded [(0#4, Config.curveP)] []).operands.getF 0#4).toNat ∧
      State.reset.operands.getF 0#4 = 0#256 := by decide +kernel

theorem witness_InversionAlgorithmsAgree :
    1 ≤ Config.curveP - 1 ∧ Config.curveP - 1 < Modulus.value .p ∧ 1 < Modulus.value .n := by decide

theorem witness_FredReduces : (Instr.fred 7#4 7#4 .n).wellFormed = true := by decide

theorem witness_FieldResultsAreReduced :
    ∃ (s t : State) (i : Instr), i = .fadd 2#4 0#4 1#4 .p ∧ i.wellFormed = true ∧ s.err = false ∧
      exec i s = .next t ∧ t.err = false := by
  refine ⟨State.reset, _, _, rfl, by decide, rfl, exec_eq _ _, ?_⟩
  decide +kernel

/-- The four answers of R61, X = p at the edge of RANGE. -/
theorem witness_PointOperandChecks :
    (State.reset.regs.getP 0#4).inf = true ∧
      ((fin Config.curveP 0).inf = false ∧ Config.curveP ≤ (fin Config.curveP 0).x.toNat) ∧
      ((fin 0 0).inf = false ∧ (fin 0 0).x.toNat < Config.curveP ∧ (fin 0 0).y.toNat < Config.curveP ∧
        (((fin 0 0).y.toNat * (fin 0 0).y.toNat : Int) -
          ((fin 0 0).x.toNat * (fin 0 0).x.toNat * (fin 0 0).x.toNat + 7)) % Config.curveP ≠ 0) ∧
      (pG.inf = false ∧ pG.x.toNat < Config.curveP ∧ pG.y.toNat < Config.curveP ∧
        ((pG.y.toNat * pG.y.toNat : Int) -
          (pG.x.toNat * pG.x.toNat * pG.x.toNat + 7)) % Config.curveP = 0) := by decide +kernel

/-- PCHK, PADD, PDBL, PMUL: operands that pass, and operands with an error in either place. -/
theorem witness_point_operands :
    ∃ S T : RegFiles, (Instr.padd 2#4 0#4 1#4).wellFormed = true ∧ (Instr.pdbl 1#4 0#4).wellFormed = true ∧
      (Instr.pmul 1#4 7#4 0#4).wellFormed = true ∧ (Instr.pchk 3#4).wellFormed = true ∧
      pointOperand S 0#4 = .ok G ∧ pointOperand S 1#4 = .ok .infinity ∧
      pointOperand S 2#4 = .error .curve ∧ pointOperand S 3#4 = .error .range ∧
      pointOperand T 0#4 = .ok G ∧ pointOperand T 1#4 = .ok G :=
  ⟨(loaded [] [(0#4, pG), (2#4, fin 1 1), (3#4, fin 0 Config.curveP)]).regs,
    (loaded [] [(0#4, pG), (1#4, pG)]).regs, by decide, by decide, by decide, by decide, by rfl, by rfl,
    by rfl, by rfl, by rfl, by rfl⟩

/-- ErrorPriority: an illegal word; raw fields for RANGE and for CURVE; an operand of FINV at m. -/
theorem witness_PchkChecksAPoint :
    ((loaded [] [(3#4, ⟨0#256, 0#256, false⟩)]).regs).getP 3#4 = ⟨0#256, 0#256, false⟩ := by rfl

/-- A point that passes beside each of the scalars that R71 lists. -/
theorem witness_PmulMultipliesPoints :
    ∃ S : RegFiles, pointOperand S 0#4 = .ok G ∧ (S.getF 4#4).toNat = 0 ∧ (S.getF 5#4).toNat = 1 ∧
      (S.getF 6#4).toNat = Config.curveN - 1 ∧ (S.getF 7#4).toNat = Config.curveN :=
  ⟨(loaded [(4#4, 0), (5#4, 1), (6#4, Config.curveN - 1), (7#4, Config.curveN)] [(0#4, pG)]).regs,
    by rfl, by decide +kernel⟩

theorem witness_ErrorPriority :
    legal 0xFF#32 = false ∧ (Instr.padd 2#4 0#4 1#4).wellFormed = true ∧
      (fin Config.curveP 0).inf = false ∧ Config.curveP ≤ (fin Config.curveP 0).x.toNat ∧
      (fin 1 1).inf = false ∧ (fin 1 1).x.toNat < Config.curveP ∧ (fin 1 1).y.toNat < Config.curveP ∧
      onCurve (fin 1 1).x.toNat (fin 1 1).y.toNat = false ∧
      (loaded [] [(0#4, fin 1 1), (1#4, fin Config.curveP 0)]).operands.getP 0#4 = fin 1 1 ∧
      (loaded [] [(0#4, fin 1 1), (1#4, fin Config.curveP 0)]).operands.getP 1#4 =
        fin Config.curveP 0 := by decide +kernel

/-- Reduced pairs for each clause of R62: opposite, equal, of different x, and (off the curve) of one x with
unrelated y. -/
theorem witness_GroupLawCases :
    ∃ x1 y1 y2 x3 y3 : Nat, (Point.affine x1 y1).Valid ∧ (Point.affine x1 y2).Valid ∧
      (Point.affine x3 y3).Valid ∧ (y1 + y2) % Config.curveP = 0 ∧ (y1 + y1) % Config.curveP ≠ 0 ∧
      x1 ≠ x3 ∧ (0 < Config.curveP ∧ 1 ≠ 2 ∧ (1 + 2) % Config.curveP ≠ 0) :=
  ⟨Config.curveGx, Config.curveGy, 0xB7C52588D95C3B9AA25B0403F1EEF75702E84BB7597AABE663B82F6F04EF2777,
    0xC6047F9441ED7D6D3045406E95C07CD85C778E4B8CEF3CA7ABAC09B95C709EE5,
    0x1AE168FEA63DC339A3C58419466CEAEEF7F632653266D0E1236431A950CFE52A,
    witness_valid_points.1, witness_valid_points.2.1, ⟨by decide, by decide, by decide +kernel⟩, by decide +kernel,
    by decide +kernel, by decide, by decide⟩

theorem witness_GroupLawNeverRaisesDomain :
    G.Valid ∧ pointOperand (loaded [] [(0#4, pG)]).regs 0#4 = .ok G := ⟨witness_valid_points.1, by rfl⟩

/-- Commutativity, associativity and closure: G + G is defined. -/
theorem witness_GroupLawAssociative_GroupLawClosedAndCommutative :
    ∃ A : Point, G.Valid ∧ pointAdd G G = .ok A :=
  ⟨.affine 0xC6047F9441ED7D6D3045406E95C07CD85C778E4B8CEF3CA7ABAC09B95C709EE5
    0x1AE168FEA63DC339A3C58419466CEAEEF7F632653266D0E1236431A950CFE52A, witness_valid_points.1,
    by decide +kernel⟩

/-- The scalar statements: a valid point, a positive digit width, and both kinds of scalar. -/
theorem witness_ScalarAlgorithmsAgree_ScalarProductIsTheFoldedSum_GroupOrderIsN :
    G.Valid ∧ 0 < 1 ∧ Config.curveN % Config.curveN = 0 ∧ 3 % Config.curveN ≠ 0 :=
  ⟨witness_valid_points.1, by decide, by decide +kernel, by decide +kernel⟩

end Sys2Proof.Tests
end

section
/-! PROOFS. The negative of a point in the curve's group, and the order of the group (R68, R71). -/

namespace Sys2Proof.Proofs.GroupOrder
open Sys2Proof Sys2Proof.Machine Sys2Proof.Laws.GroupLaw

section
variable [Fact Config.curveP.Prime]

/-- neg(P) of R11 is a valid point, and the negative in the group. -/
theorem neg_spec {P : Point} (hP : P.Valid) : P.neg.Valid ∧ toM P.neg = -toM P := by
  cases P with
  | infinity => exact ⟨trivial, by simp [Point.neg, toM]⟩
  | affine x y =>
    obtain ⟨hx, -, hc⟩ := hP
    have hns := (WeierstrassCurve.Affine.nonsingular_neg ..).2 (ns x y hc)
    have hy : ((modInt (-(y : Int)) Config.curveP : ℕ) : K) = W.toAffine.negY x y := by
      rw [cast_modInt _ ppos, negY_eq]; push_cast; rfl
    have hc' : onCurve x (modInt (-(y : Int)) Config.curveP) = true := by
      rw [← eqn_iff, hy]; exact hns.1
    refine ⟨⟨hx, modInt_lt _ ppos, hc'⟩, ?_⟩
    rw [toM_some hc, WeierstrassCurve.Affine.Point.neg_some]
    exact some_eq hns hc' rfl hy

/-- The valid points are as many as the elements of the group: `toM` is one to one and onto. -/
theorem card_valid : Nat.card { P : Point // P.Valid } = Nat.card W.toAffine.Point := by
  refine Nat.card_eq_of_bijective (fun P => toM P.1) ⟨fun P Q h => ?_, fun Q => ?_⟩
  · exact Subtype.ext (toM_inj P.2 Q.2 h)
  · obtain ⟨P, hP, rfl⟩ := toM_surj Q
    exact ⟨⟨P, hP⟩, rfl⟩

/-- (n - 1) Q is the negative of Q, since n Q is 0. -/
theorem pred_curveN_nsmul (Q : W.toAffine.Point) : (Config.curveN - 1) • Q = -Q := by
  rw [eq_neg_iff_add_eq_zero, ← succ_nsmul]
  exact curveN_nsmul Q

/-- The scalar n - 1 negates a valid point (R71). -/
theorem scalarMul_pred_curveN {P : Point} (hP : P.Valid) :
    scalarMul (Config.curveN - 1) P = .ok P.neg := by
  obtain ⟨T, hT, vT, mT⟩ := scalarMul_spec (Config.curveN - 1) hP
  obtain ⟨vN, mN⟩ := neg_spec hP
  have : T = P.neg := toM_inj vT vN (by
    rw [mT, Nat.mod_eq_of_lt (by decide), pred_curveN_nsmul, mN])
  rw [hT, this]

/-- The n-fold sum of a valid point is O (R68). -/
theorem multiple_curveN {P : Point} (hP : P.Valid) : multiple P Config.curveN = .ok .infinity := by
  obtain ⟨T, hT, vT, mT⟩ := multiple_spec Config.curveN hP
  have : T = .infinity := toM_inj vT trivial (by rw [mT, curveN_nsmul]; rfl)
  rw [hT, this]

end

/-- Settles O60: `toM` carries the valid points one to one onto the curve's group, which has n elements. -/
theorem groupOrderIsN : Obligations.GroupOrderIsN := by
  have : Fact Config.curveP.Prime := ⟨curveP_prime⟩
  exact ⟨card_valid.trans card_eq, fun _ hP => ⟨scalarMul_pred_curveN hP, multiple_curveN hP⟩⟩

end Sys2Proof.Proofs.GroupOrder
end

section
/-! PROOFS. What a step does to the block, as one of eight events, and the invariant, which every event keeps
(R22, R26, R73, R79, R101). -/

namespace Sys2Proof.Machine

/-- One step from s to t, by what happens to the block; each event says which move causes it and what the block
holds after it. In every one the step uses up the next move. -/
inductive Event (s : State) : State → Prop
  /-- the engine completes the command in flight (R75) -/
  | complete (l : Latch) (now : s.completesNow) (hl : s.latch = some l) :
      Event s { s.complete (wordOutcome l.word l.snapshot) with turns := s.turns.tail }
  /-- the reset input, or CTRL.SRST (R94, R95) -/
  | reset (r : Response) (now : s.resetsNow) :
      Event s { s.resetBlock with turns := s.turns.tail, response := r }
  /-- a word written to CMD is accepted (R73) -/
  | accept (w : Word) (hw : s.hostWrites 0x010 w) (idle : s.busy = false) :
      Event s { s.accept w with turns := s.turns.tail, response := .accepted }
  /-- the host writes STATUS (R22) -/
  | clearStatus (v : Word) (hw : s.hostWrites 0x00C v) :
      Event s { s.clearStatus v with turns := s.turns.tail, response := .accepted }
  /-- a write of CMD or of a register word is dropped (R97) -/
  | drop (off : Nat) (v : Word) (hw : s.hostWrites off v) (hoff : isRegisterWord off ∨ off = 0x010)
      (busy : s.busy = true) :
      Event s { s.dropWrite with turns := s.turns.tail, response := .accepted }
  /-- the host writes a register word of the idle block (R30, R31) -/
  | writeRegs (off : Nat) (v : Word) (r : RegFiles) (hw : s.hostWrites off v) (hoff : isRegisterWord off)
      (idle : s.busy = false) :
      Event s { s with regs := r, turns := s.turns.tail, response := .accepted }
  /-- the engine counts a cycle (R26) -/
  | count (l : Latch) (hl : s.latch = some l) (hr : 1 < l.remaining) :
      Event s { s with turns := s.turns.tail, latch := some { l with remaining := l.remaining - 1 } }
  /-- registers, STATUS and the latch stay: an idle engine turn, a read, a bus error, an ignored write, or a
  write of CTRL.IE -/
  | keep (ie : Bool) (r : Response) : Event s { s with ie := ie, turns := s.turns.tail, response := r }

/-- The moves to come play no part in a completion. -/
theorem State.complete_turns (s : State) (ts : List Turn) (r : Result) :
    State.complete { s with turns := ts } r = { s.complete r with turns := ts } := by
  cases r <;> rfl

/-- A step that writes a whole aligned word is one of the events. -/
theorem event_of_hostWrites {s : State} {off : Nat} {v : Word} (hlt : off < 0x1000) (h4 : off % 4 = 0)
    (hw : s.hostWrites off v) :
    Event s { writeWord s off v with turns := s.turns.tail, response := .accepted } := by
  rcases writeWord_cases s v h4 hlt with ⟨rfl, hv, e⟩ | ⟨rfl, -, e⟩ | ⟨rfl, e⟩ | ⟨rfl, idle, e⟩ |
    ⟨hoff, busy, e⟩ | ⟨hoff, idle, r, e⟩ | ⟨-, e⟩ <;> rw [e]
  · exact .reset _ (.inr ⟨v, hw, hv⟩)
  · exact .keep _ _
  · exact .clearStatus v hw
  · exact .accept v hw idle
  · exact .drop off v hw hoff.symm busy
  · exact .writeRegs off v r hw hoff idle
  · exact .keep s.ie _

/-- Every step that gives a next state is one of the events. -/
theorem step_event {s t : State} (h : step s = .next t) : Event s t := by
  rcases step_cases h with ⟨l, now, hl, rfl⟩ | ⟨l, -, -, hl, hr, rfl⟩ | ⟨-, -, rfl⟩ | ⟨rest, ht, rfl⟩ |
    ⟨off, v, rest, hlt, h4, ht, rfl⟩ | ⟨a, rest, r, ht, rfl⟩
  · rw [State.complete_turns]
    exact .complete l now hl
  · exact .count l hl hr
  · exact .keep s.ie s.response
  · obtain rfl : s.turns.tail = rest := by rw [ht]; rfl
    exact .reset s.response (.inl ⟨_, ht⟩)
  · obtain rfl : s.turns.tail = rest := by rw [ht]; rfl
    rw [writeWord_turns]
    exact event_of_hostWrites hlt h4 ⟨_, ht⟩
  · obtain rfl : s.turns.tail = rest := by rw [ht]; rfl
    exact .keep s.ie r

/-- Only the outcome, without error, of a command other than NOP changes Z; such a completion keeps ERR (R24). -/
theorem complete_z_ne {s : State} {w : Word} {S : RegFiles} (hz : (s.complete (wordOutcome w S)).z ≠ s.z) :
    ∃ i, decode w = .instr i ∧ i ≠ .nop ∧ (s.complete (wordOutcome w S)).err = s.err := by
  cases hr : wordOutcome w S with
  | error c => exact absurd (by rw [hr]; rfl) hz
  | ok e =>
    cases hw : decode w with
    | rejected why => simp [wordOutcome, hw] at hr
    | instr i =>
      refine ⟨i, rfl, ?_, rfl⟩
      rintro rfl
      exact hz (by rw [wordOutcome, hw]; rfl)

theorem latency_range (k : Nat) (w : Word) (r : RegFiles) :
    1 ≤ latency k w r ∧ latency k w r ≤ Config.maxLatency := by
  have := Nat.mod_lt (Config.latencyDraw k w r.f (r.p.map fun q => (q.x, q.y, q.inf)))
    (show 0 < Config.maxLatency from Nat.succ_pos _)
  unfold latency
  omega

theorem ErrCode.code_assigned (c : ErrCode) : c.code ≠ 0#4 ∧ c.code.toNat ≤ 4 := by
  cases c <;> decide

/-- An idle block with an empty latch needs only the clauses on ERR and ERRCODE. -/
theorem State.Inv.of_idle {s : State} (hb : s.busy = false) (hl : s.latch = none)
    (he : s.errcode ≠ 0#4 ↔ s.err = true) (hc : s.errcode.toNat ≤ 4) : s.Inv where
  latch_iff_busy := by rw [hb, hl]; rfl
  snapshot_live l h := by simp [hl] at h
  cycles_left l h := by simp [hl] at h
  done_idle _ := hb
  err_idle _ := hb
  errcode_iff_err := he
  errcode_assigned := hc

theorem State.Inv.latch_of_idle {s : State} (h : s.Inv) (hb : s.busy = false) : s.latch = none := by
  have := h.latch_iff_busy
  rw [hb] at this
  simpa using this.symm

theorem State.Inv.err_of_busy {s : State} (h : s.Inv) (hb : s.busy = true) : s.err = false := by
  by_contra he
  exact absurd (h.err_idle (by simpa using he)) (by simp [hb])

/-- The invariant speaks of the registers, the latch, BUSY, DONE, ERR and ERRCODE alone. -/
theorem State.Inv.congr {s t : State} (h : s.Inv) (hregs : t.regs = s.regs) (hl : t.latch = s.latch)
    (hb : t.busy = s.busy) (hd : t.done = s.done) (he : t.err = s.err) (hc : t.errcode = s.errcode) :
    t.Inv where
  latch_iff_busy := by rw [hb, hl, h.latch_iff_busy]
  snapshot_live l hl' := by rw [hregs, h.snapshot_live l (hl ▸ hl')]
  cycles_left l hl' := h.cycles_left l (hl ▸ hl')
  done_idle hd' := by rw [hb, h.done_idle (hd ▸ hd')]
  err_idle he' := by rw [hb, h.err_idle (he ▸ he')]
  errcode_iff_err := by rw [hc, he, h.errcode_iff_err]
  errcode_assigned := by rw [hc]; exact h.errcode_assigned

theorem State.Inv.complete {s : State} (h : s.Inv) (r : Result) : (s.complete r).Inv := by
  cases r with
  | ok e => exact .of_idle rfl rfl h.errcode_iff_err h.errcode_assigned
  | error c =>
    obtain ⟨hne, hle⟩ := c.code_assigned
    exact .of_idle rfl rfl (iff_of_true hne rfl) hle

theorem State.resetBlock_inv (s : State) : s.resetBlock.Inv :=
  .of_idle rfl rfl (by simp) (by simp)

theorem State.accept_inv (s : State) (w : Word) : (s.accept w).Inv where
  latch_iff_busy := rfl
  snapshot_live l hl := by cases hl; rfl
  cycles_left l hl := by cases hl; exact latency_range s.draws w s.regs
  done_idle h := by simp at h
  err_idle h := by simp at h
  errcode_iff_err := by simp
  errcode_assigned := by simp

theorem State.Inv.clearStatus {s : State} (h : s.Inv) (v : Word) : (s.clearStatus v).Inv where
  latch_iff_busy := h.latch_iff_busy
  snapshot_live := h.snapshot_live
  cycles_left := h.cycles_left
  done_idle hd := h.done_idle (Bool.and_eq_true _ _ ▸ hd).1
  err_idle he := h.err_idle (Bool.and_eq_true _ _ ▸ he).1
  errcode_iff_err := by
    rw [State.clearStatus_err, State.clearStatus_errcode]
    cases v.getLsbD 2
    · simpa using h.errcode_iff_err
    · simp
  errcode_assigned := by
    rw [State.clearStatus_errcode]
    cases v.getLsbD 2
    · exact h.errcode_assigned
    · simp

/-- Another cycle of the command in flight leaves at least one. -/
theorem State.Inv.count {s : State} (h : s.Inv) {l : Latch} (hl : s.latch = some l) (hr : 1 < l.remaining) :
    State.Inv { s with latch := some { l with remaining := l.remaining - 1 } } where
  latch_iff_busy := by rw [h.latch_iff_busy, hl]; rfl
  snapshot_live _ hl' := by cases hl'; exact h.snapshot_live l hl
  cycles_left _ hl' := by
    cases hl'
    have := h.cycles_left l hl
    exact ⟨Nat.le_sub_of_add_le hr, (Nat.sub_le _ _).trans this.2⟩
  done_idle := h.done_idle
  err_idle := h.err_idle
  errcode_iff_err := h.errcode_iff_err
  errcode_assigned := h.errcode_assigned

theorem Event.keeps_inv {s t : State} (h : Event s t) (hs : s.Inv) : t.Inv := by
  cases h with
  | complete l now hl => exact (hs.complete _).congr rfl rfl rfl rfl rfl rfl
  | reset r now => exact s.resetBlock_inv.congr rfl rfl rfl rfl rfl rfl
  | accept w hw idle => exact (s.accept_inv w).congr rfl rfl rfl rfl rfl rfl
  | clearStatus v hw => exact (hs.clearStatus v).congr rfl rfl rfl rfl rfl rfl
  | drop off v hw hoff busy => exact hs.congr rfl rfl rfl rfl rfl rfl
  | writeRegs off v r hw hoff idle =>
    exact .of_idle idle (hs.latch_of_idle idle) hs.errcode_iff_err hs.errcode_assigned
  | count l hl hr => exact (hs.count hl hr).congr rfl rfl rfl rfl rfl rfl
  | keep ie r => exact hs.congr rfl rfl rfl rfl rfl rfl

end Sys2Proof.Machine

namespace Sys2Proof.Proofs.StepEvents
open Sys2Proof Sys2Proof.Machine

/-- Settles O31: each event of a step keeps the invariant. -/
theorem stepKeepsInvariant : Obligations.StepKeepsInvariant :=
  fun _ _ hs h => (step_event h).keeps_inv hs

/-- A flag that keeps its value neither rises nor falls. -/
theorem rises_falls_of_eq {a b : Bool} {P Q : Prop} (e : b = a) :
    (a = false → b = true → P) ∧ (a = true → b = false → Q) := by
  subst e
  cases b <;> simp

/-- Settles O35: of the events only an acceptance raises BUSY, and only a completion or a reset lowers it. -/
theorem busyRisesAndFallsOnlyAtTheseEvents : Obligations.BusyRisesAndFallsOnlyAtTheseEvents := by
  intro s t h
  cases step_event h with
  | complete l now hl =>
    obtain ⟨hb, hd, -⟩ := s.complete_idle (wordOutcome l.word l.snapshot)
    exact ⟨fun _ h1 => absurd h1 (by simp [hb]), fun _ _ => .inl ⟨now, hd⟩⟩
  | reset r now => exact ⟨fun _ h1 => by simp at h1, fun _ _ => .inr now⟩
  | accept w hw idle => exact ⟨fun _ _ => ⟨w, hw⟩, fun _ h0 => by simp at h0⟩
  | clearStatus | drop | writeRegs | count | keep => exact rises_falls_of_eq rfl

/-- Settles O36: of the events only a dropped write raises OVR, and only a write of STATUS or a reset lowers
it. -/
theorem ovrRisesAndFallsOnlyAtTheseEvents : Obligations.OvrRisesAndFallsOnlyAtTheseEvents := by
  intro s t h
  cases step_event h with
  | complete l now hl =>
    obtain ⟨-, ho, -⟩ := s.complete_keeps (wordOutcome l.word l.snapshot)
    exact rises_falls_of_eq ho
  | reset r now => exact ⟨fun _ h1 => by simp at h1, fun _ _ => .inl now⟩
  | clearStatus v hw =>
    refine ⟨fun h0 h1 => by simp [h0] at h1, fun h1 h0 => .inr ⟨v, hw, ?_⟩⟩
    rw [State.clearStatus_ovr, h1] at h0
    simpa using h0
  | drop off v hw hoff busy => exact ⟨fun _ _ => ⟨busy, off, v, hw, hoff⟩, fun _ h0 => by simp at h0⟩
  | accept | writeRegs | count | keep => exact rises_falls_of_eq rfl

/-- Settles O37: of the events only a completion and a reset change Z, and the invariant gives ERR = 0 at a
completion without error. -/
theorem zeroFlagChangesOnlyAtTheseEvents : Obligations.ZeroFlagChangesOnlyAtTheseEvents := by
  intro s t hs h hz
  cases step_event h with
  | complete l now hl =>
    have ⟨_, hb, _⟩ := now
    obtain ⟨i, hi, hnop, herr⟩ := complete_z_ne hz
    exact .inl ⟨now, herr.trans (hs.err_of_busy hb), l, i, hl, hi, hnop⟩
  | reset r now => exact .inr now
  | accept | clearStatus | drop | writeRegs | count | keep => exact absurd rfl hz

end Sys2Proof.Proofs.StepEvents
end

section
/-! PROOFS. The control registers as the host reads and writes them (R19 to R22), and the cycles that the engine
counts (R26, R93). -/

namespace Sys2Proof.Machine

theorem readWord_id (s : State) : readWord s 0x000 = idWord := rfl
theorem readWord_param (s : State) : readWord s 0x004 = paramWord := rfl
theorem readWord_ctrl (s : State) : readWord s 0x008 = s.ctrlWord := rfl
theorem readWord_status (s : State) : readWord s 0x00C = s.statusWord := rfl
theorem writeWord_id (s : State) (v : Word) : writeWord s 0x000 v = s := rfl
theorem writeWord_param (s : State) (v : Word) : writeWord s 0x004 v = s := rfl
theorem writeWord_ctrl (s : State) (v : Word) : writeWord s 0x008 v = writeCtrl s v := rfl
theorem writeWord_status (s : State) (v : Word) : writeWord s 0x00C v = s.clearStatus v := rfl

theorem State.ctrlWord_eq (s : State) : s.ctrlWord = if s.ie then 1#32 else 0#32 := by
  unfold State.ctrlWord
  cases s.ie <;> rfl

/-- A word above another is the high one shifted, plus the low one. -/
theorem toNat_append_eq_add {m n : Nat} (x : BitVec m) (y : BitVec n) :
    (x ++ y).toNat = x.toNat * 2 ^ n + y.toNat := by
  rw [BitVec.toNat_append, ← Nat.shiftLeft_add_eq_or_of_lt y.isLt, Nat.shiftLeft_eq]

theorem State.toNat_statusWord (s : State) :
    s.statusWord.toNat =
      s.busy.toNat + 2 * s.done.toNat + 4 * s.err.toNat + 8 * s.ovr.toNat + 16 * s.z.toNat +
        256 * s.errcode.toNat := by
  simp only [State.statusWord, toNat_append_eq_add, BitVec.toNat_ofBool, BitVec.toNat_ofNat]
  omega

/-- The fields of PARAM as R20 places them. -/
theorem paramWord_fields :
    paramWord.extractLsb' 0 1 = invAlgBit Config.invAlg ∧
      paramWord.extractLsb' 1 3 = smulAlgBits Config.smulAlg ∧ paramWord.extractLsb' 4 4 = 8#4 ∧
      paramWord.extractLsb' 8 4 = 4#4 ∧ paramWord.extractLsb' 12 20 = 0#20 := by
  unfold paramWord
  generalize invAlgBit Config.invAlg = i
  generalize smulAlgBits Config.smulAlg = a
  revert i a
  decide

/-- When the engine moves next, a step is its turn. -/
theorem step_of_engineNext {s : State} (h : s.engineNext) :
    step s = engineTurn { s with turns := s.turns.tail } := by
  rcases h with h | ⟨rest, h⟩ <;> rw [step, h]
  · obtain ⟨⟩ := s
    cases h
    rfl
  · rfl

/-- With more than one cycle left an engine turn only counts one (R26). -/
theorem engineTurn_of_one_lt {s : State} {l : Latch} (hb : s.busy = true) (hl : s.latch = some l)
    (hr : 1 < l.remaining) :
    engineTurn s = .next { s with latch := some { l with remaining := l.remaining - 1 } } := by
  rw [engineTurn, hb, hl]
  exact if_neg (Nat.not_le.2 hr)

/-- The turn of an idle engine changes nothing (R93). -/
theorem engineTurn_of_idle {s : State} (hb : s.busy = false) : engineTurn s = .next s := by
  rw [engineTurn, hb]

end Sys2Proof.Machine

namespace Sys2Proof.Proofs.ControlRegisters
open Sys2Proof Sys2Proof.Machine

/-- Settles O10: IE is all that CTRL shows, and SRST decides what a write does. -/
theorem ctrlReadAndWrite : Obligations.CtrlReadAndWrite := by
  intro s v
  rw [readWord_ctrl, writeWord_ctrl, writeCtrl]
  exact ⟨rfl, s.ctrlWord_eq, fun h => by rw [h]; rfl, fun h => by rw [h]; rfl⟩

/-- Settles O11: the layout of STATUS as a number, and each W1C bit of a write both ways. -/
theorem statusReadAndWrite : Obligations.StatusReadAndWrite := by
  intro s v
  refine ⟨s.toNat_statusWord, s.clearStatus v, writeWord_status s v, rfl, ?_, ?_, ?_, ?_, ?_, ?_⟩ <;>
    intro h <;> simp [-BitVec.getLsbD_eq_getElem, h]

/-- Settles O13: both words are constants, and PARAM holds its fields where R20 places them. -/
theorem idAndParamAreConstant : Obligations.IdAndParamAreConstant := by
  intro s t v
  rw [readWord_param, readWord_param]
  exact ⟨readWord_id s, writeWord_id s v, rfl, writeWord_param s v, paramWord_fields⟩

/-- Settles O28: the step is an engine turn, which counts a cycle or finds the block idle. -/
theorem engineCountsCycles : Obligations.EngineCountsCycles := by
  intro s he
  rw [step_of_engineNext he]
  exact ⟨fun l hb hl hr => engineTurn_of_one_lt hb hl hr, fun hb => engineTurn_of_idle hb⟩

end Sys2Proof.Proofs.ControlRegisters
end

section
/-! PROOFS. The window as the host sees it: the words of the registers, reserved offsets, bus errors and the
steps that accesses take (R28 to R37), with the events that change a register. -/

namespace Sys2Proof.Machine

theorem toNat_getWord (v : FWord) (j : Nat) : (getWord v j).toNat = v.toNat / 2 ^ (32 * j) % 2 ^ 32 := by
  rw [getWord, BitVec.extractLsb'_toNat, Nat.shiftRight_eq_div_pow]

theorem targetOf_pointX {i : RegField} {j : Nat} (hi : isPointReg i = true) (hj : j < 8) :
    targetOf (0x200 + 0x80 * i.toNat + 4 * j) = .pointX i j := by
  rw [targetOf_point hi (by omega), pointTarget_x i hj]

theorem targetOf_pointY {i : RegField} {j : Nat} (hi : isPointReg i = true) (hj : j < 8) :
    targetOf (0x220 + 0x80 * i.toNat + 4 * j) = .pointY i j := by
  rw [show 0x220 + 0x80 * i.toNat + 4 * j = 0x200 + 0x80 * i.toNat + (0x20 + 4 * j) by omega,
    targetOf_point hi (by omega), pointTarget_y i hj]

theorem targetOf_pointInf {i : RegField} (hi : isPointReg i = true) :
    targetOf (0x240 + 0x80 * i.toNat) = .pointInf i := by
  rw [show 0x240 + 0x80 * i.toNat = 0x200 + 0x80 * i.toNat + 0x40 by omega,
    targetOf_point hi (by omega), pointTarget_inf]

theorem isReservedWord_point {i : RegField} {k : Nat} (hi : isPointReg i = true) (hk : 17 ≤ k)
    (hk' : k < 32) : isReservedWord (0x200 + 0x80 * i.toNat + 4 * k) := by
  have := isPointReg_iff.1 hi
  unfold isReservedWord
  omega

section
variable (s : State) {i : RegField} {j : Nat} (v : Word)

theorem writeRegs_idle (r : RegFiles) (hb : s.busy = false) : writeRegs s r = { s with regs := r } := by
  rw [writeRegs, hb]
  rfl

theorem readWord_field (hi : isFieldReg i = true) (hj : j < 8) :
    readWord s (0x100 + 0x20 * i.toNat + 4 * j) = getWord (s.regs.getF i) j := by
  rw [readWord, targetOf_field hi hj]

theorem writeWord_field (hi : isFieldReg i = true) (hj : j < 8) (hb : s.busy = false) :
    writeWord s (0x100 + 0x20 * i.toNat + 4 * j) v =
      { s with regs := s.regs.setF i (setWord (s.regs.getF i) j v) } := by
  rw [writeWord, targetOf_field hi hj]
  exact writeRegs_idle s _ hb

theorem readWord_pointX (hi : isPointReg i = true) (hj : j < 8) :
    readWord s (0x200 + 0x80 * i.toNat + 4 * j) = getWord (s.regs.getP i).x j := by
  rw [readWord, targetOf_pointX hi hj]

theorem writeWord_pointX (hi : isPointReg i = true) (hj : j < 8) (hb : s.busy = false) :
    writeWord s (0x200 + 0x80 * i.toNat + 4 * j) v =
      { s with regs := s.regs.setP i { s.regs.getP i with x := setWord (s.regs.getP i).x j v } } := by
  rw [writeWord, targetOf_pointX hi hj]
  exact writeRegs_idle s _ hb

theorem readWord_pointY (hi : isPointReg i = true) (hj : j < 8) :
    readWord s (0x220 + 0x80 * i.toNat + 4 * j) = getWord (s.regs.getP i).y j := by
  rw [readWord, targetOf_pointY hi hj]

theorem writeWord_pointY (hi : isPointReg i = true) (hj : j < 8) (hb : s.busy = false) :
    writeWord s (0x220 + 0x80 * i.toNat + 4 * j) v =
      { s with regs := s.regs.setP i { s.regs.getP i with y := setWord (s.regs.getP i).y j v } } := by
  rw [writeWord, targetOf_pointY hi hj]
  exact writeRegs_idle s _ hb

theorem readWord_pointInf (hi : isPointReg i = true) :
    readWord s (0x240 + 0x80 * i.toNat) = 0#31 ++ BitVec.ofBool (s.regs.getP i).inf := by
  rw [readWord, targetOf_pointInf hi]

/-- Of a word written to INF only bit 0 counts, busy or not (R31). -/
theorem writeWord_pointInf (hi : isPointReg i = true) :
    writeWord s (0x240 + 0x80 * i.toNat) v =
      writeRegs s (s.regs.setP i { s.regs.getP i with inf := v.getLsbD 0 }) := by
  rw [writeWord, targetOf_pointInf hi]

theorem readWord_reserved {off : Nat} (h : isReservedWord off) : readWord s off = 0#32 := by
  rw [readWord, targetOf_reserved h]

theorem writeWord_reserved {off : Nat} (h : isReservedWord off) : writeWord s off v = s := by
  rw [writeWord, targetOf_reserved h]

/-- The moves to come play no part in what the host reads. -/
theorem readWord_turns (ts : List Turn) (off : Nat) : readWord { s with turns := ts } off = readWord s off := by
  unfold readWord
  cases targetOf off <;> rfl

/-- Only bits 1 to 3 of a word written to STATUS count (R22). -/
theorem State.clearStatus_congr {v v' : Word} (h1 : v.getLsbD 1 = v'.getLsbD 1)
    (h2 : v.getLsbD 2 = v'.getLsbD 2) (h3 : v.getLsbD 3 = v'.getLsbD 3) :
    s.clearStatus v = s.clearStatus v' := by
  unfold State.clearStatus
  rw [h1, h2, h3]

/-- Only bits 0 and 1 of a word written to CTRL count (R21). -/
theorem writeCtrl_congr {v v' : Word} (h0 : v.getLsbD 0 = v'.getLsbD 0) (h1 : v.getLsbD 1 = v'.getLsbD 1) :
    writeCtrl s v = writeCtrl s v' := by
  unfold writeCtrl
  rw [h0, h1]

end

/-- The reserved bits of STATUS are constant zeros (R22). -/
theorem State.statusWord_reserved (s : State) :
    s.statusWord.extractLsb' 5 3 = 0#3 ∧ s.statusWord.extractLsb' 12 20 = 0#20 := by
  have := s.busy.toNat_le
  have := s.done.toNat_le
  have := s.err.toNat_le
  have := s.ovr.toNat_le
  have := s.z.toNat_le
  have := s.errcode.isLt
  constructor <;> apply BitVec.eq_of_toNat_eq <;>
    rw [BitVec.extractLsb'_toNat, Nat.shiftRight_eq_div_pow, s.toNat_statusWord, BitVec.toNat_ofNat] <;>
    omega

/-- A bit that a mask keeps. -/
theorem getLsbD_and_of_mask {v mask : Word} {k : Nat} (h : mask.getLsbD k = true) :
    v.getLsbD k = (v &&& mask).getLsbD k := by
  rw [BitVec.getLsbD_and, h, Bool.and_true]

/-- A step with an access next is that access. -/
theorem step_of_access {s : State} {a : Access} {rest : List Turn} (h : s.turns = .access a :: rest) :
    step s = busAccess a { s with turns := rest } := by
  rw [step, h]

theorem not_windowBytes_le {off : Nat} (h : off < 0x1000) : ¬ Config.windowBytes ≤ off :=
  Nat.not_le.2 (show off < Config.windowBytes from h)

theorem busAccess_of_not_wholeWord {a : Access} (s : State) (hoff : a.off < 0x1000)
    (h : a.wholeWord = false) : busAccess a s = .next { s with response := .busError } := by
  rw [busAccess, if_neg (not_windowBytes_le hoff), h]
  rfl

theorem busAccess_read (s : State) {off : Nat} (hoff : off < 0x1000) (h4 : off % 4 = 0) :
    busAccess ⟨off, .w32, .read⟩ s = .next { s with response := .data (readWord s off) } := by
  rw [busAccess, if_neg (not_windowBytes_le hoff), if_pos (by simp [Access.wholeWord, h4])]

theorem busAccess_write (s : State) {off : Nat} (v : Word) (hoff : off < 0x1000) (h4 : off % 4 = 0) :
    busAccess ⟨off, .w32, .write v⟩ s = .next { writeWord s off v with response := .accepted } := by
  rw [busAccess, if_neg (not_windowBytes_le hoff), if_pos (by simp [Access.wholeWord, h4])]

theorem step_of_hostRead {s : State} {off : Nat} {rest : List Turn} (hoff : off < 0x1000)
    (h4 : off % 4 = 0) (h : s.turns = hostRead off :: rest) :
    step s = .next { s with turns := rest, response := .data (readWord s off) } := by
  rw [step_of_access h, busAccess_read _ hoff h4, readWord_turns]

theorem step_of_hostWrite {s : State} {off : Nat} {v : Word} {rest : List Turn} (hoff : off < 0x1000)
    (h4 : off % 4 = 0) (h : s.turns = hostWrite off v :: rest) :
    step s = .next { writeWord s off v with turns := rest, response := .accepted } := by
  rw [step_of_access h, busAccess_write _ v hoff h4, writeWord_turns]

end Sys2Proof.Machine

namespace Sys2Proof.Proofs.HostWindow
open Sys2Proof Sys2Proof.Machine

/-- Settles O15: the write is `setWord` on F[i] alone, which replaces word j and keeps the others. -/
theorem fieldWordMap : Obligations.FieldWordMap := by
  intro s i j v hi hj
  refine ⟨by rw [readWord_field s hi hj, toNat_getWord], fun hb => ⟨_, writeWord_field s v hi hj hb, ?_⟩⟩
  refine ⟨?_, fun k hk hkj => ?_, fun i' hne => s.regs.getF_setF_ne i i' _ hne, fun _ => rfl, rfl⟩
  · rw [s.regs.getF_setF_self i _ hi]
    exact getWord_setWord_self _ v hj
  · rw [s.regs.getF_setF_self i _ hi]
    exact getWord_setWord_ne _ v hk hkj

/-- Settles O16: each write is a `setP` of P[i] with one of its three parts replaced. -/
theorem pointWordMap : Obligations.PointWordMap := by
  intro s i j v hi hj
  have self (q : PointReg) := s.regs.getP_setP_self i q hi
  have other (q : PointReg) (i' : RegField) := s.regs.getP_setP_ne i i' q
  refine ⟨readWord_pointX s hi hj, readWord_pointY s hi hj, ?_, fun hb => ⟨?_, ?_, ?_⟩, fun k hk hk' => ?_⟩
  · rw [readWord_pointInf s hi]
    cases (s.regs.getP i).inf <;> rfl
  · refine ⟨_, writeWord_pointX s v hi hj hb, ?_⟩
    rw [self]
    exact ⟨getWord_setWord_self _ v hj, fun k hk hkj => getWord_setWord_ne _ v hk hkj, rfl, rfl, other _,
      fun _ => rfl, rfl⟩
  · refine ⟨_, writeWord_pointY s v hi hj hb, ?_⟩
    rw [self]
    exact ⟨getWord_setWord_self _ v hj, fun k hk hkj => getWord_setWord_ne _ v hk hkj, rfl, rfl, other _,
      fun _ => rfl, rfl⟩
  · refine ⟨_, (writeWord_pointInf s v hi).trans (writeRegs_idle s _ hb), ?_⟩
    exact ⟨self _, other _, fun _ => rfl, rfl⟩
  · have hr := isReservedWord_point hi hk hk'
    exact ⟨readWord_reserved s hr, writeWord_reserved s v hr⟩

/-- Settles O17: what the host reads of a mapped register is its fields beside constant zeros, and a write
looks at the bits of its fields alone. -/
theorem reservedReadsZeroIgnoresWrites : Obligations.ReservedReadsZeroIgnoresWrites := by
  intro s v
  obtain ⟨-, -, -, -, hparam⟩ := paramWord_fields
  refine ⟨fun off h => ⟨readWord_reserved s h, writeWord_reserved s v h⟩, rfl, hparam, writeWord_param s v,
    ?_, ?_, ?_, ?_, ?_, fun i hi => ⟨?_, ?_⟩⟩
  · rw [readWord_ctrl, s.ctrlWord_eq]
    cases s.ie <;> rfl
  · exact writeCtrl_congr s (getLsbD_and_of_mask rfl) (getLsbD_and_of_mask rfl)
  · exact s.statusWord_reserved.1
  · exact s.statusWord_reserved.2
  · exact s.clearStatus_congr (getLsbD_and_of_mask rfl) (getLsbD_and_of_mask rfl) (getLsbD_and_of_mask rfl)
  · rw [readWord_pointInf s hi]
    cases (s.regs.getP i).inf <;> rfl
  · rw [writeWord_pointInf s _ hi, writeWord_pointInf s _ hi, ← getLsbD_and_of_mask rfl]

/-- Settles O18: such an access is no whole word. -/
theorem busErrorChangesNothing : Obligations.BusErrorChangesNothing := by
  intro s a rest h hoff hbad
  have hw : a.wholeWord = false := by
    rw [Access.wholeWord, Bool.and_eq_false_iff, beq_eq_false_iff_ne, beq_eq_false_iff_ne]
    exact hbad
  rw [step_of_access h, busAccess_of_not_wholeWord _ hoff hw]

/-- Settles O19, from the steps of the host's two access primitives. -/
theorem readsHaveNoSideEffectsAndWritesAct : Obligations.ReadsHaveNoSideEffectsAndWritesAct :=
  fun _ _ _ hoff h4 => ⟨step_of_hostRead hoff h4, fun _ => step_of_hostWrite hoff h4⟩

/-- Settles O21: BLOCK_BASE is a whole number of windows, and an offset is an address less BLOCK_BASE. -/
theorem windowAddresses : Obligations.WindowAddresses := by
  have base : Config.blockBase % 4096 = 0 := by
    rw [Config.blockBase, Config.windowBytes, Nat.mul_mod_left]
  refine ⟨base, fun addr off => ?_⟩
  rw [windowOffset, show Config.windowBytes = 4096 from rfl]
  generalize Config.blockBase = base
  split
  · rw [Option.some.injEq]
    omega
  · simp only [reduceCtorEq, false_iff]
    omega

/-- Settles O34: of the events only a completion, a reset and an idle write of a register word touch the
registers. -/
theorem registersChangeOnlyAtTheseEvents : Obligations.RegistersChangeOnlyAtTheseEvents := by
  intro s t h hne
  cases step_event h with
  | complete l now hl =>
    obtain ⟨hb, hd, -⟩ := s.complete_idle (wordOutcome l.word l.snapshot)
    exact .inl ⟨now, hb, hd⟩
  | reset r now => exact .inr (.inl now)
  | writeRegs off v r hw hoff idle => exact .inr (.inr ⟨idle, off, v, hoff, hw⟩)
  | accept | clearStatus | drop | count | keep => exact absurd rfl hne

end Sys2Proof.Proofs.HostWindow
end

section
/-! PROOFS. Loading a field register word by word, and from the bytes of a hash (R30, R33, R34). -/

namespace Sys2Proof.Machine

/-- A 256-bit value after the words j of `js` are replaced by `w j`, one after another. -/
def setWords (w : Nat → Word) (v : FWord) (js : List Nat) : FWord :=
  js.foldl (fun v j => setWord v j (w j)) v

theorem getWord_setWords (w : Nat → Word) {k : Nat} (hk : k < 8) (js : List Nat) (v : FWord) :
    getWord (setWords w v js) k = if k ∈ js then w k else getWord v k := by
  induction js generalizing v with
  | nil => rfl
  | cons j js ih =>
    refine (ih _).trans ?_
    by_cases hkj : k = j
    · subst hkj
      rw [getWord_setWord_self v (w k) hk, ite_self, if_pos List.mem_cons_self]
    · rw [getWord_setWord_ne v (w j) hk hkj]
      simp [hkj]

/-- Replacing all eight words leaves nothing of the old value (R33). -/
theorem setWords_range {w : Nat → Word} {v : FWord} (hv : ∀ j < 8, getWord v j = w j) (v' : FWord) :
    setWords w v' (List.range 8) = v :=
  eq_of_getWord_eq fun j hj => by
    rw [getWord_setWords w hj, if_pos (List.mem_range.2 hj), hv j hj]

theorem RegFiles.setF_getF (r : RegFiles) {i : RegField} (hi : isFieldReg i = true) :
    r.setF i (r.getF i) = r :=
  RegFiles.ext_get
    (fun j => by
      by_cases h : j = i
      · rw [h, r.getF_setF_self i _ hi]
      · rw [r.getF_setF_ne i j _ h])
    (fun _ => rfl)

theorem RegFiles.setF_setF (r : RegFiles) (i : RegField) (v v' : FWord) :
    (r.setF i v).setF i v' = r.setF i v' := by
  simp [RegFiles.setF]

/-- A run begins with a step. -/
theorem run_succ {M : Host.Core} {s t : M.State} (h : M.step s = .next t) (k : Nat) :
    M.run (k + 1) s = M.run k t := by
  simp only [Host.Core.run, h]

/-- Host writes of words of F[i] of an idle block run one after another, and each is answered (R30, R36). -/
theorem run_writes_field {i : RegField} (hi : isFieldReg i = true) (w : Nat → Word) (rest : List Turn)
    (js : List Nat) (hjs : ∀ j ∈ js, j < 8) (s : State) (hb : s.busy = false)
    (ht : s.turns = js.map (fun j => hostWrite (fieldOffset i j) (w j)) ++ rest) :
    Host.Core.run core js.length s = .next { s with
      regs := s.regs.setF i (setWords w (s.regs.getF i) js), turns := rest,
      response := if js = [] then s.response else .accepted } := by
  induction js generalizing s with
  | nil =>
    obtain rfl : s.turns = rest := ht
    rw [setWords, List.foldl_nil, s.regs.setF_getF hi]
    rfl
  | cons j js ih =>
    have hj : j < 8 := hjs j List.mem_cons_self
    have := isFieldReg_iff.1 hi
    have hstep := step_of_hostWrite (by unfold fieldOffset; omega) (by unfold fieldOffset; omega) ht
    rw [fieldOffset, writeWord_field s (w j) hi hj hb] at hstep
    have hjs' : ∀ k ∈ js, k < 8 := fun k hk => hjs k (List.mem_cons_of_mem j hk)
    refine (run_succ hstep _).trans ((ih hjs' _ ?_ rfl).trans ?_)
    · exact hb
    · simp only [s.regs.getF_setF_self i _ hi, s.regs.setF_setF, ite_self, reduceCtorEq, if_false]
      rfl

/-- Eight writes of the words of v load F[i] with v (R30). -/
theorem run_loadFieldWords {i : RegField} (hi : isFieldReg i = true) {w : Nat → Word} {v : FWord}
    (hv : ∀ j < 8, getWord v j = w j) {rest : List Turn} {s : State} (hb : s.busy = false)
    (ht : s.turns = loadFieldWords i w ++ rest) :
    Host.Core.run core 8 s = .next { s with
      regs := s.regs.setF i v, turns := rest, response := .accepted } := by
  have := run_writes_field hi w rest (List.range 8) (fun j hj => List.mem_range.1 hj) s hb ht
  rw [setWords_range hv] at this
  exact this

/-- The bytes of a hash as digits to base 256, the least significant first (R34). -/
def hashDigits (h : Vector (BitVec 8) 32) : List Nat := (h.toList.map BitVec.toNat).reverse

theorem length_hashDigits (h : Vector (BitVec 8) 32) : (hashDigits h).length = 32 := by
  simp [hashDigits]

theorem hashInteger_eq_ofDigits (h : Vector (BitVec 8) 32) :
    hashInteger h = Nat.ofDigits 256 (hashDigits h) := by
  rw [hashInteger, hashDigits, Nat.ofDigits_eq_foldr, List.foldr_reverse, List.foldl_map]
  simp only [Nat.cast_id, Nat.add_comm]

theorem hashDigits_lt (h : Vector (BitVec 8) 32) : ∀ d ∈ hashDigits h, d < 256 := by
  intro d hd
  obtain ⟨b, -, rfl⟩ := List.mem_map.1 (List.mem_reverse.1 hd)
  exact b.isLt

theorem hashInteger_lt (h : Vector (BitVec 8) 32) : hashInteger h < 2 ^ 256 := by
  have := Nat.ofDigits_lt_base_pow_length (by decide) (hashDigits_lt h)
  rw [← hashInteger_eq_ofDigits, length_hashDigits] at this
  exact this.trans_eq (by norm_num)

/-- A word is its four bytes, the most significant first. -/
theorem toNat_bytes (a b c d : BitVec 8) :
    BitVec.toNat (w := 32) (a ++ b ++ c ++ d) = Nat.ofDigits 256 [d.toNat, c.toNat, b.toNat, a.toNat] := by
  refine (toNat_append_eq_add (a ++ b ++ c) d).trans ?_
  rw [toNat_append_eq_add (a ++ b) c, toNat_append_eq_add a b]
  simp only [Nat.ofDigits, Nat.cast_id]
  omega

theorem hashWord_eq (h : Vector (BitVec 8) 32) (j : Nat) :
    hashWord h j = h[28 - 4 * j] ++ h[29 - 4 * j] ++ h[30 - 4 * j] ++ h[31 - 4 * j] := by
  have byte (k : Nat) (hk : k < 32) : (h[k - 4 * j]?).getD 0#8 = h[k - 4 * j] := by
    rw [Vector.getElem?_eq_getElem (by omega), Option.getD_some]
  simp only [hashWord]
  rw [byte 28 (by decide), byte 29 (by decide), byte 30 (by decide), byte 31 (by decide)]

/-- Digits 4j to 4j+3 of a hash are the bytes of its word j. -/
theorem hashDigits_word (h : Vector (BitVec 8) 32) {j : Nat} (hj : j < 8) :
    ((hashDigits h).drop (4 * j)).take 4 =
      [h[31 - 4 * j].toNat, h[30 - 4 * j].toNat, h[29 - 4 * j].toNat, h[28 - 4 * j].toNat] := by
  apply List.ext_getElem
  · rw [List.length_take, List.length_drop, length_hashDigits]
    exact Nat.min_eq_left (by omega)
  · intro k _ hk
    have : k < 4 := hk
    interval_cases k <;> simp [hashDigits]

/-- Word j of a hash's integer is made of the bytes that R34 names. -/
theorem getWord_hashInteger (h : Vector (BitVec 8) 32) {j : Nat} (hj : j < 8) :
    getWord (BitVec.ofNat 256 (hashInteger h)) j = hashWord h j := by
  apply BitVec.eq_of_toNat_eq
  have hp : 2 ^ (32 * j) = 256 ^ (4 * j) := by
    rw [pow_mul, pow_mul]
    norm_num
  rw [toNat_getWord, toNat_ofNat_of_lt (hashInteger_lt h), hashInteger_eq_ofDigits, hp,
    Nat.ofDigits_div_pow_eq_ofDigits_drop _ (by decide) _ (hashDigits_lt h), show 2 ^ 32 = 256 ^ 4 from rfl,
    Nat.ofDigits_mod_pow_eq_ofDigits_take _ (by decide) _
      (fun d hd => hashDigits_lt h d (List.mem_of_mem_drop hd)),
    hashDigits_word h hj, hashWord_eq, toNat_bytes]

end Sys2Proof.Machine

namespace Sys2Proof.Proofs.LoadingField
open Sys2Proof Sys2Proof.Machine

/-- Settles O22: the eight writes leave the value that has the words written; a hash's words are those of its
integer. -/
theorem loadingAFieldRegister : Obligations.LoadingAFieldRegister := by
  intro s i rest hi hb
  refine ⟨fun v ht => ?_, fun h ht => ?_⟩
  · refine ⟨_, run_loadFieldWords hi (fun _ _ => rfl) hb ht, s.regs.getF_setF_self i v hi, ?_, fun _ => rfl, rfl⟩
    exact fun j hne => s.regs.getF_setF_ne i j v hne
  · refine ⟨_, run_loadFieldWords hi (fun _ hj => getWord_hashInteger h hj) hb ht, ?_⟩
    rw [s.regs.getF_setF_self i _ hi, toNat_ofNat_of_lt (hashInteger_lt h)]

end Sys2Proof.Proofs.LoadingField
end

section
/-! PROOFS. The command word as a number, what the decoder reads, and the three forms of legality: R48's predicate,
R47's mask-and-match table and the decoder (R44 to R49). -/

namespace Sys2Proof

/-- The layout of R45 as a number. -/
theorem toNat_commandWord (op : BitVec 8) (d a b : RegField) (m : BitVec 1) :
    (commandWord op d a b m).toNat =
      (op.toNat ||| d.toNat <<< 8 ||| a.toNat <<< 12 ||| b.toNat <<< 16 ||| m.toNat <<< 20) := by
  simp only [commandWord, BitVec.toNat_append, BitVec.toNat_ofNat, Nat.shiftLeft_or_distrib,
    ← Nat.shiftLeft_add, Nat.zero_mod, Nat.zero_shiftLeft, Nat.zero_or]
  simp only [Nat.reduceAdd, Nat.or_comm, Nat.or_assoc]

/-- The decoder reads a command from an encoding exactly when the command is well formed, and reads that one. -/
theorem decode_encode_eq_instr {i j : Instr} :
    decode (encode i) = .instr j ↔ i = j ∧ i.wellFormed = true := by
  cases i <;> simp [encode, decode, require_eq_instr, Instr.wellFormed, and_assoc]

theorem rsvField_of_decode {w : Word} {i : Instr} (h : decode w = .instr i) : rsvField w = 0#11 := by
  by_contra hr
  simp [decode, hr] at h

/-- A word with a command is that command's encoding: the checks of its opcode fix every bit that the command does
not hold. -/
theorem encode_of_decode {w : Word} {i : Instr} (h : decode w = .instr i) :
    encode i = w ∧ i.wellFormed = true := by
  obtain ⟨op, d, a, b, m, rfl⟩ : ∃ op d a b m, commandWord op d a b m = w :=
    ⟨_, _, _, _, _, commandWord_fields w (rsvField_of_decode h)⟩
  have hop (k : Nat) (hk : op.toNat = k) : op = BitVec.ofNat 8 k := by
    rw [← hk, BitVec.ofNat_toNat, BitVec.setWidth_eq]
  simp only [decode, opField_commandWord, dField_commandWord, aField_commandWord, bField_commandWord,
    mField_commandWord, rsvField_commandWord, bne_self_eq_false, Bool.false_eq_true, if_false] at h
  split at h <;> simp only [require_eq_instr, reduceCtorEq] at h
  all_goals
    next hk =>
      obtain ⟨rfl, h⟩ := h
      obtain rfl := hop _ hk
      simp_all [encode, Instr.wellFormed]

theorem decode_eq_instr {w : Word} {i : Instr} :
    decode w = .instr i ↔ encode i = w ∧ i.wellFormed = true := by
  refine ⟨encode_of_decode, ?_⟩
  rintro ⟨rfl, hi⟩
  exact decode_encode_eq_instr.2 ⟨rfl, hi⟩

/-- Class F leaves bit 3 of the field clear (R46). -/
theorem isFieldReg_extractLsb' (w : Word) (k : Nat) :
    isFieldReg (w.extractLsb' k 4) = !w.getLsbD (k + 3) := by
  have bit : w.getLsbD (k + 3) = (w.extractLsb' k 4).getLsbD 3 := by simp
  rw [bit]
  generalize w.extractLsb' k 4 = i
  revert i
  decide

/-- Class P leaves bits 3 and 2 of the field clear (R46). -/
theorem isPointReg_extractLsb' (w : Word) (k : Nat) :
    isPointReg (w.extractLsb' k 4) = (w.extractLsb' (k + 2) 2 == 0#2) := by
  have bits : w.extractLsb' (k + 2) 2 = (w.extractLsb' k 4).extractLsb' 2 2 := by
    ext i hi
    simp [show 2 + i < 4 by omega, Nat.add_assoc]
  rw [bits]
  generalize w.extractLsb' k 4 = i
  revert i
  decide

/-- Class Z leaves the M bit clear (R46). -/
theorem mField_eq_zero (w : Word) : (mField w == 0#1) = !w.getLsbD 20 := by
  have bit : w.getLsbD 20 = (mField w).getLsbD 0 := by simp [mField]
  rw [bit]
  generalize mField w = m
  revert m
  decide

theorem toNat_extractLsb'_eq (w : Word) (k n : Nat) :
    (w.extractLsb' k n).toNat = w.toNat / 2 ^ k % 2 ^ n := by
  rw [BitVec.extractLsb'_toNat, Nat.shiftRight_eq_div_pow]

/-- R48's clause for NOP, field by field. -/
theorem extractLsb'_nop_fields (w : Word) :
    (w.extractLsb' 8 13 == 0#13) =
      (dField w == 0#4 && aField w == 0#4 && bField w == 0#4 && mField w == 0#1) := by
  rw [Bool.eq_iff_iff]
  simp only [Bool.and_eq_true, beq_iff_eq, ← BitVec.toNat_inj, dField, aField, bField, mField,
    toNat_extractLsb'_eq, BitVec.toNat_ofNat]
  omega

theorem exists_require_eq_instr {i : Instr} {checks : List (Bool × Rejection)} :
    (∃ j, require i checks = .instr j) ↔ ∀ c ∈ checks, c.1 = true := by
  simp only [require_eq_instr]
  exact ⟨fun ⟨_, _, h⟩ => h, fun h => ⟨i, rfl, h⟩⟩

/-- R48's predicate holds of the words that the decoder reads: for each opcode its clauses are the decoder's checks. -/
theorem legal_iff_decode (w : Word) : legal w = true ↔ ∃ i, decode w = .instr i := by
  have hrsv : w.extractLsb' 21 11 = rsvField w := rfl
  have hop : w.extractLsb' 0 8 = opField w := rfl
  by_cases hr : rsvField w = 0#11
  · simp only [legal, decode, hrsv, hop, hr, extractLsb'_nop_fields, ← mField_eq_zero, beq_self_eq_true,
      Bool.true_and, bne_self_eq_false, Bool.false_eq_true, if_false]
    split <;> simp [exists_require_eq_instr, dField, aField, bField, isFieldReg_extractLsb',
      isPointReg_extractLsb', and_assoc, -BitVec.getLsbD_eq_getElem, *]
  · simp [legal, decode, hrsv, hr]

theorem legal_iff_encode {w : Word} : legal w = true ↔ ∃ i, encode i = w ∧ i.wellFormed = true := by
  simp only [legal_iff_decode, decode_eq_instr]

theorem legal_encode (i : Instr) : legal (encode i) = i.wellFormed := by
  rw [Bool.eq_iff_iff]
  simp [legal_iff_decode, decode_encode_eq_instr]

theorem eq_iff_fields {u v : Word} :
    u = v ↔ rsvField u = rsvField v ∧ opField u = opField v ∧ dField u = dField v ∧ aField u = aField v ∧
      bField u = bField v ∧ mField u = mField v := by
  simp only [← BitVec.toNat_inj, rsvField, opField, dField, aField, bField, mField, toNat_extractLsb'_eq]
  omega

/-- A row's mask and match, field by field. -/
theorem OpcodeRow.covers_iff {r : OpcodeRow} {w : Word} :
    r.covers w = true ↔
      rsvField w &&& rsvField r.mask = rsvField r.pattern ∧ opField w &&& opField r.mask = opField r.pattern ∧
        dField w &&& dField r.mask = dField r.pattern ∧ aField w &&& aField r.mask = aField r.pattern ∧
        bField w &&& bField r.mask = bField r.pattern ∧ mField w &&& mField r.mask = mField r.pattern := by
  rw [OpcodeRow.covers, beq_iff_eq, eq_iff_fields]
  simp only [rsvField, opField, dField, aField, bField, mField, BitVec.extractLsb'_and]

/-- The mask of class F (R46, R47). -/
theorem and_eight_eq_zero {i : RegField} : i &&& 8#4 = 0#4 ↔ isFieldReg i = true := by
  revert i
  decide

/-- The mask of class P (R46, R47). -/
theorem and_twelve_eq_zero {i : RegField} : i &&& 12#4 = 0#4 ↔ isPointReg i = true := by
  revert i
  decide

/-- Some row of R47's table covers a word exactly when the decoder reads a command: for each opcode the row's masks
are the decoder's checks. -/
theorem exists_row_covers_iff_decode (w : Word) :
    (∃ r ∈ opcodeTable, r.covers w = true) ↔ ∃ i, decode w = .instr i := by
  have all11 (x : BitVec 11) : x &&& 2047#11 = x := BitVec.and_allOnes
  have all8 (x : BitVec 8) : x &&& 255#8 = x := BitVec.and_allOnes
  have all4 (x : BitVec 4) : x &&& 15#4 = x := BitVec.and_allOnes
  have all1 (x : BitVec 1) : x &&& 1#1 = x := BitVec.and_allOnes
  have toNat8 (x k : BitVec 8) : x = k ↔ x.toNat = k.toNat := BitVec.toNat_inj.symm
  simp only [decode, opcodeTable, List.exists_mem_cons_iff, List.not_mem_nil, false_and, exists_false, or_false,
    OpcodeRow.covers_iff]
  generalize rsvField w = rsv, opField w = op, dField w = d, aField w = a, bField w = b, mField w = m
  simp only [rsvField, opField, dField, aField, bField, mField, BitVec.reduceExtractLsb', all11, all8, all4, all1,
    toNat8, BitVec.reduceToNat, and_eight_eq_zero, and_twelve_eq_zero, BitVec.and_zero, and_true]
  by_cases hr : rsv = 0#11
  · simp only [hr, bne_self_eq_false, Bool.false_eq_true, if_false]
    split
    case h_11 => -- an opcode of no row
      simp only [reduceCtorEq, exists_false, iff_false]
      grind
    all_goals simp [exists_require_eq_instr, *]
  · simp [hr]

theorem opField_of_covers {r : OpcodeRow} (hr : r ∈ opcodeTable) {w : Word} (h : r.covers w = true) :
    opField r.pattern = opField w := by
  have mask : ∀ r ∈ opcodeTable, opField r.mask = BitVec.allOnes 8 := by decide
  obtain ⟨-, hop, -⟩ := OpcodeRow.covers_iff.1 h
  rw [← hop, mask r hr, BitVec.and_allOnes]

/-- No two rows cover one word, since their opcodes differ. -/
theorem length_rows_covering_le_one (w : Word) : (opcodeTable.filter (·.covers w)).length ≤ 1 := by
  have distinct : (opcodeTable.map (opField ·.pattern)).Nodup := by decide
  have same : (opcodeTable.filter (·.covers w)).map (opField ·.pattern) =
      List.replicate (opcodeTable.filter (·.covers w)).length (opField w) := by
    refine List.map_eq_replicate_iff.2 fun r hr => ?_
    obtain ⟨hmem, hc⟩ := List.mem_filter.1 hr
    exact opField_of_covers hmem hc
  rw [← List.nodup_replicate (a := opField w), ← same]
  exact distinct.sublist (List.filter_sublist.map _)

theorem one_row_covers_iff (w : Word) :
    (opcodeTable.filter (·.covers w)).length = 1 ↔ ∃ r ∈ opcodeTable, r.covers w = true := by
  rw [← List.length_filter_pos_iff]
  have := length_rows_covering_le_one w
  omega

end Sys2Proof

namespace Sys2Proof.Machine

/-- The outcome of an illegal word is ILLEGAL, whatever the registers hold (R49). -/
theorem wordOutcome_of_not_legal {w : Word} (h : legal w = false) (S : RegFiles) :
    wordOutcome w S = .error .illegal := by
  unfold wordOutcome
  cases hw : decode w with
  | rejected why => rfl
  | instr i => exact absurd ((legal_iff_decode w).2 ⟨i, hw⟩) (by simp [h])

theorem outcome_of_not_wellFormed {i : Instr} (h : i.wellFormed = false) (S : RegFiles) :
    outcome i S = .error .illegal := by
  unfold outcome
  exact if_neg (by simp [h])

/-- In the cycle in which its cycles run out, the engine completes the word in flight on the snapshot (R75). -/
theorem engineTurn_of_le_one {s : State} {l : Latch} (hb : s.busy = true) (hl : s.latch = some l)
    (hr : l.remaining ≤ 1) : engineTurn s = .next (s.complete (wordOutcome l.word l.snapshot)) := by
  rw [engineTurn, hb, hl, ← State.operands_of_latch hl, ← runWord_eq]
  exact if_pos hr

theorem step_of_completesNow {s : State} {l : Latch} (now : s.completesNow) (hl : s.latch = some l) :
    step s = .next (State.complete { s with turns := s.turns.tail } (wordOutcome l.word l.snapshot)) := by
  obtain ⟨he, hb, l', hl', hr⟩ := now
  obtain rfl : l' = l := Option.some.inj (hl'.symm.trans hl)
  rw [step_of_engineNext he]
  exact engineTurn_of_le_one hb hl hr

theorem complete_illegal_errored (s : State) : Errored s (s.complete (.error .illegal)) 1#4 := rfl

theorem writeWord_cmd_of_idle {s : State} (w : Word) (hb : s.busy = false) : writeWord s 0x010 w = s.accept w := by
  rw [show writeWord s 0x010 w = writeCmd s w from rfl, writeCmd, hb]
  rfl

/-- The assembler takes a line whose command is well formed (R46, R50). -/
theorem assemble_of_assembleRaw {l : AsmLine} {i : Instr} (h : assembleRaw l = some i)
    (hi : i.wellFormed = true) : assemble l = some i :=
  Option.filter_eq_some_iff.2 ⟨h, hi⟩

theorem assembleRaw_disassemble (i : Instr) : assembleRaw (disassemble i) = some i := by
  cases i <;> rfl

/-- A mnemonic of a field command without a suffix means `.p` (R50). -/
theorem assembleRaw_default_suffix {mnemonic : String} {d a b : RegField} {operands : List AsmReg}
    (hm : mnemonic ∈ ["fadd", "fsub", "fmul", "finv", "fred"])
    (ho : operands ∈ [[.f d, .f a, .f b], [.f d, .f a]]) :
    assembleRaw ⟨mnemonic, none, operands⟩ = assembleRaw ⟨mnemonic, some .p, operands⟩ := by
  simp only [List.mem_cons, List.not_mem_nil, or_false] at hm ho
  rcases hm with rfl | rfl | rfl | rfl | rfl <;> rcases ho with rfl | rfl <;> rfl

/-- NOP and the point mnemonics take no suffix (R50). -/
theorem assembleRaw_suffix_of_point {mnemonic : String} (m : Modulus) (operands : List AsmReg)
    (hm : mnemonic ∈ ["nop", "padd", "pdbl", "pmul", "pchk"]) :
    assembleRaw ⟨mnemonic, some m, operands⟩ = none := by
  simp only [List.mem_cons, List.not_mem_nil, or_false] at hm
  rcases hm with rfl | rfl | rfl | rfl | rfl <;> rfl

end Sys2Proof.Machine

namespace Sys2Proof.Proofs.Encoding
open Sys2Proof Sys2Proof.Machine

/-- Settles O1: the fields of an encoding read back, and pass the checks of its opcode. -/
theorem decodeEncodeRoundTrip : Obligations.DecodeEncodeRoundTrip :=
  fun _ hi => decode_encode_eq_instr.2 ⟨rfl, hi⟩

/-- Settles O2: the checks of an opcode fix every bit that its command does not hold. -/
theorem encodeDecodeRoundTrip : Obligations.EncodeDecodeRoundTrip :=
  fun _ _ h => encode_of_decode h

/-- Settles O3: the decoder accepts what the predicate accepts and what some row covers, and rows differ in their
opcodes. -/
theorem legalWordsMatchExactlyOneRow : Obligations.LegalWordsMatchExactlyOneRow := by
  intro w
  refine ⟨?_, legal_iff_decode w⟩
  rw [one_row_covers_iff, exists_row_covers_iff_decode, legal_iff_decode]

/-- Settles O4: the layout as a number, and each field from its own bits. -/
theorem commandWordLayout : Obligations.CommandWordLayout := by
  intro op d a b m
  exact ⟨toNat_commandWord op d a b m, opField_commandWord .., dField_commandWord .., aField_commandWord ..,
    bField_commandWord .., mField_commandWord .., rsvField_commandWord ..⟩

/-- Settles O5, by running the decoder on each word. -/
theorem sampleWordsDecode : Obligations.SampleWordsDecode := by
  unfold Obligations.SampleWordsDecode
  decide

/-- Settles O6: a line gives its command back, the suffix left out is read as `.p`, and the mnemonics that take no
suffix are refused with one. -/
theorem assemblerRoundTrip : Obligations.AssemblerRoundTrip := by
  refine ⟨fun i => assemble_of_assembleRaw (assembleRaw_disassemble i), ?_, ?_, by decide, by decide⟩
  · rintro ⟨mnemonic, suffix, operands⟩ d a b hm rfl ho
    exact congrArg (Option.filter Instr.wellFormed) (assembleRaw_default_suffix hm ho)
  · rintro ⟨mnemonic, _ | m, operands⟩ hm hs
    · exact absurd rfl hs
    · rw [assemble, assembleRaw_suffix_of_point m operands hm]
      rfl

/-- Settles O7: a pseudo-instruction's line and its expansion's stand for the same command, which is well formed when
its two registers exist. -/
theorem pseudoInstructionsExpand : Obligations.PseudoInstructionsExpand := by
  intro m d a
  refine ⟨rfl, rfl, rfl, fun hd ha => ⟨?_, ?_, ?_⟩⟩ <;>
    exact assemble_of_assembleRaw rfl (by simp [Instr.wellFormed, hd, ha])

/-- Settles O26: an illegal word is accepted like any and its outcome is ILLEGAL; a word with a field outside its class
is no well-formed command's encoding. -/
theorem illegalWordsCompleteWithIllegal : Obligations.IllegalWordsCompleteWithIllegal := by
  refine ⟨fun s w hb _ => ?_, fun s l now hl hw => ?_, fun w op d a b hop hd ha hb => ?_⟩
  · rw [writeWord_cmd_of_idle w hb]
    exact ⟨rfl, rfl⟩
  · refine ⟨_, step_of_completesNow now hl, ?_⟩
    rw [wordOutcome_of_not_legal hw]
    exact complete_illegal_errored _
  · cases h : legal w
    · simp
    · obtain ⟨i, rfl, hi⟩ := legal_iff_encode.1 h
      subst hop hd ha hb
      cases i <;> simp [encode, Instr.wellFormed, isFieldReg_iff, isPointReg_iff] at hi ⊢ <;> omega

/-- Settles O27: an encoding is legal exactly when its command is well formed, and the outcome of an ill-formed command
is ILLEGAL. -/
theorem illFormedCommandsCompleteWithIllegal : Obligations.IllFormedCommandsCompleteWithIllegal := by
  intro s i hi
  refine ⟨by rw [legal_encode, hi], _, exec_eq i s, ?_⟩
  rw [outcome_of_not_wellFormed hi]
  exact complete_illegal_errored s

end Sys2Proof.Proofs.Encoding
end

section
/-! PROOFS. The field commands FADD, FSUB, FMUL, FINV and FRED (R52 to R60), and the two inversion algorithms
(R20, R59). -/

namespace Sys2Proof.Machine

/-! ### The words of the commands -/

/-- The mask and the pattern in a well-formed command's row of R47's table are those that its word matches. -/
theorem encode_and_mask {i : Instr} (h : Laws.Row.Statement i) (hi : i.wellFormed = true) {r : OpcodeRow}
    (hr : r ∈ opcodeTable) (hm : r.mnemonic = i.mnemonic) : encode i &&& r.mask = r.pattern := by
  have distinct : ∀ r ∈ opcodeTable, ∀ r' ∈ opcodeTable, r.mnemonic = r'.mnemonic → r = r' := by decide
  obtain ⟨r', hr', hm', hc⟩ := h hi
  obtain rfl := distinct r hr r' hr' (hm.trans hm'.symm)
  exact beq_iff_eq.1 hc

/-- The destination of a command with three fields of class F (R46). -/
theorem isFieldReg_of_binary {d a b : RegField}
    (h : (isFieldReg d && isFieldReg a && isFieldReg b) = true) : isFieldReg d = true := by
  simp only [Bool.and_eq_true] at h
  obtain ⟨⟨hd, -⟩, -⟩ := h
  exact hd

/-- The destination of a command with two fields of class F (R46). -/
theorem isFieldReg_of_unary {d a : RegField} (h : (isFieldReg d && isFieldReg a) = true) :
    isFieldReg d = true :=
  (Bool.and_eq_true_iff.1 h).1

/-! ### What a completed field command leaves -/

theorem wroteField_complete (s : State) {d : RegField} {r : Nat} (hd : isFieldReg d = true)
    (hr : r < 2 ^ 256) : WroteField s (s.complete (.ok (fieldEffect d r))) d r where
  value := by
    rw [State.complete_ok, State.completeOk_regs]
    exact (congrArg BitVec.toNat (s.regs.getF_setF_self d _ hd)).trans (toNat_ofNat_of_lt hr)
  otherFields j hj := s.regs.getF_setF_ne d j _ hj
  points _ := rfl
  rest := rfl

theorem WroteField.z_iff {s t : State} {d : RegField} {r : Nat} (h : WroteField s t d r) :
    t.z = true ↔ r = 0 := by
  rw [h.rest]
  exact decide_eq_true_iff

theorem toNat_eq_zero_iff {v : FWord} : v.toNat = 0 ↔ v = 0#256 := BitVec.toNat_inj (y := 0#256)

section
variable {s : State} {i : Instr}

theorem exec_wroteField {d : RegField} {r : Nat} (h : outcome i s.operands = .ok (fieldEffect d r))
    (hd : isFieldReg d = true) (hr : r < 2 ^ 256) : ∃ t, exec i s = .next t ∧ WroteField s t d r :=
  ⟨_, exec_eq i s, h ▸ wroteField_complete s hd hr⟩

theorem exec_errored {c : ErrCode} (h : outcome i s.operands = .error c) :
    ∃ t, exec i s = .next t ∧ Errored s t c.code :=
  ⟨_, exec_eq i s, h ▸ rfl⟩

end

/-! ### Two reduced operands -/

/-- The body that FADD, FSUB and FMUL share: two reduced operands, then an exact result reduced (R56 to R58). -/
def binaryBody (op : Int → Int → Int) (d a b : RegField) (m : Modulus) (S : RegFiles) : Result := do
  let va ← reducedOperand S m a
  let vb ← reducedOperand S m b
  .ok (fieldEffect d (modInt (op va vb) m.value))

section
variable {d a b : RegField} {m : Modulus} (S : RegFiles)

theorem outcome_fadd (h : (Instr.fadd d a b m).wellFormed = true) :
    outcome (.fadd d a b m) S = binaryBody (· + ·) d a b m S := if_pos h

theorem outcome_fsub (h : (Instr.fsub d a b m).wellFormed = true) :
    outcome (.fsub d a b m) S = binaryBody (· - ·) d a b m S := if_pos h

theorem outcome_fmul (h : (Instr.fmul d a b m).wellFormed = true) :
    outcome (.fmul d a b m) S = binaryBody (· * ·) d a b m S := if_pos h

theorem outcome_finv (h : (Instr.finv d a m).wellFormed = true) :
    outcome (.finv d a m) S = finvBody d a m S := if_pos h

theorem outcome_fred (h : (Instr.fred d a m).wellFormed = true) :
    outcome (.fred d a m) S = .ok (fieldEffect d ((S.getF a).toNat % m.value)) := if_pos h

variable {S} (op : Int → Int → Int)

theorem binaryBody_of_lt (ha : (S.getF a).toNat < m.value) (hb : (S.getF b).toNat < m.value) :
    binaryBody op d a b m S =
      .ok (fieldEffect d (modInt (op (S.getF a).toNat (S.getF b).toNat) m.value)) := by
  rw [binaryBody, reducedOperand_ok ha, reducedOperand_ok hb]
  rfl

/-- Either operand unreduced raises RANGE (R53). -/
theorem binaryBody_of_le (h : m.value ≤ (S.getF a).toNat ∨ m.value ≤ (S.getF b).toNat) :
    binaryBody op d a b m S = .error .range := by
  rw [binaryBody]
  rcases lt_or_ge (S.getF a).toNat m.value with ha | ha
  · rw [reducedOperand_ok ha, reducedOperand_error (h.resolve_left (not_le.2 ha))]
    rfl
  · rw [reducedOperand_error ha]
    rfl

theorem finvBody_of_le (h : m.value ≤ (S.getF a).toNat) : finvBody d a m S = .error .range := by
  rw [finvBody, reducedOperand_error h]
  rfl

theorem finvBody_of_zero (h : S.getF a = 0#256) : finvBody d a m S = .error .domain := by
  have h0 : (S.getF a).toNat = 0 := toNat_eq_zero_iff.2 h
  rw [finvBody, reducedOperand_ok (h0 ▸ Modulus_value_pos m)]
  exact if_pos h0

theorem finvBody_of_lt (h : (S.getF a).toNat < m.value) (h0 : S.getF a ≠ 0#256) :
    finvBody d a m S = .ok (fieldEffect d (invMod m.value (S.getF a).toNat)) := by
  rw [finvBody, reducedOperand_ok h]
  exact if_neg (mt toNat_eq_zero_iff.1 h0)

end

/-- A command of two reduced operands that are reduced: the result that it writes. -/
theorem exec_binary_wroteField {s : State} {i : Instr} {op : Int → Int → Int} {d a b : RegField} {m : Modulus}
    (hi : outcome i s.operands = binaryBody op d a b m s.operands) (hd : isFieldReg d = true)
    (ha : (s.operands.getF a).toNat < m.value) (hb : (s.operands.getF b).toNat < m.value) :
    ∃ t, exec i s = .next t ∧
      WroteField s t d (modInt (op (s.operands.getF a).toNat (s.operands.getF b).toNat) m.value) :=
  exec_wroteField (hi.trans (binaryBody_of_lt op ha hb)) hd
    ((modInt_lt _ (Modulus_value_pos m)).trans (Modulus_value_bounds m).1)

/-! ### The two inversion algorithms -/

/-- A product of two values modulo m is 1 exactly when it is so in the ring of residues. -/
theorem mul_mod_eq_one_iff {m a r : Nat} (hm : 1 < m) : a * r % m = 1 ↔ (a : ZMod m) * r = 1 := by
  have h := ZMod.natCast_eq_natCast_iff' (a * r) 1 m
  rw [Nat.mod_eq_of_lt hm] at h
  rw [← h]
  push_cast
  rfl

/-- An inverse modulo m in [0, m) is unique. -/
theorem inverse_unique {m a r r' : Nat} (hm : 1 < m) (hr : r < m) (hr' : r' < m) (h : a * r % m = 1)
    (h' : a * r' % m = 1) : r' = r := by
  have hcast : (r' : ZMod m) = r := inv_unique ((mul_mod_eq_one_iff hm).1 h') ((mul_mod_eq_one_iff hm).1 h)
  rwa [ZMod.natCast_eq_natCast_iff', Nat.mod_eq_of_lt hr', Nat.mod_eq_of_lt hr] at hcast

/-- In a round of Euclid's algorithm the product of the remainders falls below half. -/
theorem two_mul_mul_mod_lt {r0 r1 : Nat} (hpos : 0 < r1) (hle : r1 ≤ r0) :
    2 * (r1 * (r0 % r1)) < r0 * r1 := by
  have hlt : r0 % r1 < r1 := Nat.mod_lt r0 hpos
  have hq : r1 ≤ r1 * (r0 / r1) := Nat.le_mul_of_pos_right r1 (Nat.div_pos hle hpos)
  have hdiv := Nat.div_add_mod r0 r1
  have hhalf : 2 * (r0 % r1) < r0 := by omega
  calc 2 * (r1 * (r0 % r1)) = 2 * (r0 % r1) * r1 := by ring
    _ < r0 * r1 := Nat.mul_lt_mul_of_pos_right hhalf hpos

/-- Euclid's invariant, in any ring: where t0 and t1 carry a to the remainders r0 and r1, the answer carries it to
their greatest common divisor, given rounds enough for the product of the remainders to reach 0. -/
theorem euclidLoop_mul {R : Type} [CommRing R] (a : R) {fuel r0 r1 : Nat} {t0 t1 : Int} (hle : r1 ≤ r0)
    (hfuel : r0 * r1 < 2 ^ fuel) (h0 : (t0 : R) * a = r0) (h1 : (t1 : R) * a = r1) :
    (euclidLoop fuel r0 r1 t0 t1 : R) * a = (r0.gcd r1 : Nat) := by
  induction fuel generalizing r0 r1 t0 t1 with
  | zero =>
    obtain rfl : r1 = 0 := by
      rcases Nat.mul_eq_zero.1 (Nat.lt_one_iff.1 hfuel) with h | h <;> omega
    simpa [euclidLoop] using h0
  | succ fuel ih =>
    rw [euclidLoop]
    split
    next hz =>
      subst hz
      simpa using h0
    next hz =>
      have hpos : 0 < r1 := Nat.pos_of_ne_zero hz
      have hfuel' : r1 * (r0 % r1) < 2 ^ fuel := by
        have := two_mul_mul_mod_lt hpos hle
        omega
      have hdiv : (r1 : R) * (r0 / r1 : Nat) + (r0 % r1 : Nat) = r0 := by
        exact_mod_cast congrArg (Nat.cast : Nat → R) (Nat.div_add_mod r0 r1)
      rw [ih (Nat.mod_lt r0 hpos).le hfuel' h1, Nat.gcd_comm r0, Nat.gcd_rec r1 r0, Nat.gcd_comm]
      rw [Int.cast_sub, Int.cast_mul, Int.cast_natCast]
      linear_combination h0 - (r0 / r1 : Nat) * h1 - hdiv

/-- Modulo a prime, the extended Euclidean algorithm inverts (R59). -/
theorem cast_euclidInv {m a : Nat} (hp : m.Prime) (hm : m < 2 ^ 256) (h1 : 1 ≤ a) (h2 : a < m) :
    (a : ZMod m) * (euclidInv m a : Nat) = 1 := by
  have hfuel : m * a < 2 ^ 513 := by
    refine (Nat.mul_lt_mul'' hm (h2.trans hm)).trans ?_
    rw [← pow_add, Nat.pow_lt_pow_iff_right one_lt_two]
    decide
  have hloop := euclidLoop_mul (a : ZMod m) (t0 := 0) (t1 := 1) h2.le hfuel (by simp) (by simp)
  have hgcd : m.gcd a = 1 := Nat.coprime_of_lt_prime (by omega) h2 hp
  rw [euclidInv, cast_modInt _ hp.pos, mul_comm, hloop, hgcd, Nat.cast_one]

/-- Both algorithms answer an inverse in [0, m) (R59). -/
theorem inverseBy_spec (m : Modulus) (alg : Config.InvAlg) {a : Nat} (h1 : 1 ≤ a) (h2 : a < m.value) :
    inverseBy alg m.value a < m.value ∧ a * inverseBy alg m.value a % m.value = 1 := by
  have hp := Modulus_value_prime m
  obtain ⟨hm, -⟩ := Modulus_value_bounds m
  have : Fact m.value.Prime := ⟨hp⟩
  rw [mul_mod_eq_one_iff hp.one_lt]
  cases alg with
  | fermat =>
    have ha := cast_ne_zero h1 h2
    refine ⟨invMod_lt hp.pos a, ?_⟩
    exact (congrArg _ (cast_invMod hp hm ha)).trans (mul_inv_cancel₀ ha)
  | eea => exact ⟨modInt_lt _ hp.pos, cast_euclidInv hp hm h1 h2⟩

theorem invMod_spec (m : Modulus) {a : Nat} (h1 : 1 ≤ a) (h2 : a < m.value) :
    invMod m.value a < m.value ∧ a * invMod m.value a % m.value = 1 :=
  inverseBy_spec m .fermat h1 h2

/-- Every inverse in [0, m) is the one that FINV uses (R10). -/
theorem eq_invMod (m : Modulus) {a r : Nat} (h1 : 1 ≤ a) (h2 : a < m.value) (hr : r < m.value)
    (h : a * r % m.value = 1) : r = invMod m.value a := by
  obtain ⟨hlt, hinv⟩ := invMod_spec m h1 h2
  exact inverse_unique (Modulus_value_prime m).one_lt hlt hr hinv h

/-- No result depends on the algorithm (R20). -/
theorem inverseBy_eq_invMod (m : Modulus) (alg : Config.InvAlg) {a : Nat} (h1 : 1 ≤ a) (h2 : a < m.value) :
    inverseBy alg m.value a = invMod m.value a := by
  obtain ⟨hlt, hinv⟩ := inverseBy_spec m alg h1 h2
  exact eq_invMod m h1 h2 hlt hinv

/-! ### Results in [0, m) -/

/-- A product of reduced operands is 0 modulo m only when an operand is, since m is prime (R58). -/
theorem mul_mod_eq_zero_iff (m : Modulus) {a b : Nat} (ha : a < m.value) (hb : b < m.value) :
    a * b % m.value = 0 ↔ a = 0 ∨ b = 0 := by
  rw [← Nat.dvd_iff_mod_eq_zero, (Modulus_value_prime m).dvd_mul]
  exact or_congr ⟨fun h => Nat.eq_zero_of_dvd_of_lt h ha, fun h => h ▸ dvd_zero _⟩
    ⟨fun h => Nat.eq_zero_of_dvd_of_lt h hb, fun h => h ▸ dvd_zero _⟩

/-- One subtraction reduces any 256-bit value (R60). -/
theorem mod_eq_or_mod_add_eq (m : Modulus) (v : FWord) :
    v.toNat % m.value = v.toNat ∨ v.toNat % m.value + m.value = v.toNat := by
  obtain ⟨-, htwice⟩ := Modulus_value_bounds m
  rcases lt_or_ge v.toNat m.value with h | h
  · exact .inl (Nat.mod_eq_of_lt h)
  · have hv := v.isLt
    right
    rw [Nat.mod_eq_sub_mod h, Nat.mod_eq_of_lt (by omega)]
    omega

/-- The five field commands, by destination and modulus (R54). -/
def IsFieldCommand (i : Instr) (d : RegField) (m : Modulus) : Prop :=
  (∃ a b, i = .fadd d a b m ∨ i = .fsub d a b m ∨ i = .fmul d a b m) ∨
    ∃ a, i = .finv d a m ∨ i = .fred d a m

/-- An outcome is an error or a result in [0, m) for F[d]. -/
def ErrorOrReduced (d : RegField) (m : Modulus) (o : Result) : Prop :=
  (∃ c, o = .error c) ∨ ∃ r, r < m.value ∧ o = .ok (fieldEffect d r)

theorem binaryBody_errorOrReduced (op : Int → Int → Int) (d a b : RegField) (m : Modulus) (S : RegFiles) :
    ErrorOrReduced d m (binaryBody op d a b m S) := by
  by_cases h : m.value ≤ (S.getF a).toNat ∨ m.value ≤ (S.getF b).toNat
  · exact .inl ⟨_, binaryBody_of_le op h⟩
  · obtain ⟨ha, hb⟩ := not_or.1 h
    exact .inr ⟨_, modInt_lt _ (Modulus_value_pos m), binaryBody_of_lt op (not_le.1 ha) (not_le.1 hb)⟩

theorem finvBody_errorOrReduced (d a : RegField) (m : Modulus) (S : RegFiles) :
    ErrorOrReduced d m (finvBody d a m S) := by
  rcases lt_or_ge (S.getF a).toNat m.value with hlt | hle
  · by_cases h0 : S.getF a = 0#256
    · exact .inl ⟨_, finvBody_of_zero h0⟩
    · exact .inr ⟨_, invMod_lt (Modulus_value_pos m) _, finvBody_of_lt hlt h0⟩
  · exact .inl ⟨_, finvBody_of_le hle⟩

/-- Every well-formed field command has a destination in class F, and answers an error or a reduced result. -/
theorem IsFieldCommand.errorOrReduced {i : Instr} {d : RegField} {m : Modulus} (h : IsFieldCommand i d m)
    (hi : i.wellFormed = true) (S : RegFiles) :
    isFieldReg d = true ∧ ErrorOrReduced d m (outcome i S) := by
  rcases h with ⟨a, b, rfl | rfl | rfl⟩ | ⟨a, rfl | rfl⟩
  · exact ⟨isFieldReg_of_binary hi, outcome_fadd S hi ▸ binaryBody_errorOrReduced _ d a b m S⟩
  · exact ⟨isFieldReg_of_binary hi, outcome_fsub S hi ▸ binaryBody_errorOrReduced _ d a b m S⟩
  · exact ⟨isFieldReg_of_binary hi, outcome_fmul S hi ▸ binaryBody_errorOrReduced _ d a b m S⟩
  · exact ⟨isFieldReg_of_unary hi, outcome_finv S hi ▸ finvBody_errorOrReduced d a m S⟩
  · exact ⟨isFieldReg_of_unary hi, .inr ⟨_, Nat.mod_lt _ (Modulus_value_pos m), outcome_fred S hi⟩⟩

end Sys2Proof.Machine

namespace Sys2Proof.Proofs.FieldCommands
open Sys2Proof Sys2Proof.Machine

/-- Settles O41: the exact sum reduced, or RANGE. -/
theorem faddAddsModulo : Obligations.FaddAddsModulo := by
  intro s d a b m hi
  have ho := outcome_fadd s.operands hi
  refine ⟨encode_and_mask (Laws.Row.fadd d a b m) hi (r := ⟨"FADD", 0x00000001#32, 0xFFE888FF#32⟩)
    (by decide) rfl, fun ha hb => ?_, fun h => exec_errored (ho.trans (binaryBody_of_le _ h))⟩
  rw [← modInt_natCast, Nat.cast_add]
  exact exec_binary_wroteField ho (isFieldReg_of_binary hi) ha hb

/-- Settles O42: the residue of the exact difference, which is F[a] + m - F[b] when F[a] is smaller, or RANGE. -/
theorem fsubSubtractsModulo : Obligations.FsubSubtractsModulo := by
  intro s d a b m hi
  have hm := Modulus_value_pos m
  have ho := outcome_fsub s.operands hi
  refine ⟨encode_and_mask (Laws.Row.fsub d a b m) hi (r := ⟨"FSUB", 0x00000002#32, 0xFFE888FF#32⟩)
    (by decide) rfl, fun ha hb => ?_, fun h => exec_errored (ho.trans (binaryBody_of_le _ h))⟩
  obtain ⟨t, ht, hw⟩ := exec_binary_wroteField ho (isFieldReg_of_binary hi) ha hb
  refine ⟨t, _, ht, hw, modInt_lt _ hm, modInt_dvd _ hm, fun hlt => modInt_unique (by omega) ?_⟩
  exact ⟨-1, by omega⟩

/-- Settles O43: the exact product reduced, 0 only for a zero operand since m is prime, or RANGE. -/
theorem fmulMultipliesModulo : Obligations.FmulMultipliesModulo := by
  intro s d a b m hi
  have ho := outcome_fmul s.operands hi
  refine ⟨encode_and_mask (Laws.Row.fmul d a b m) hi (r := ⟨"FMUL", 0x00000003#32, 0xFFE888FF#32⟩)
    (by decide) rfl, fun ha hb => ?_, fun h => exec_errored (ho.trans (binaryBody_of_le _ h))⟩
  obtain ⟨t, ht, hw⟩ := exec_binary_wroteField ho (isFieldReg_of_binary hi) ha hb
  rw [← Nat.cast_mul, modInt_natCast] at hw
  refine ⟨t, ht, hw, ?_⟩
  rw [hw.z_iff, mul_mod_eq_zero_iff m ha hb, toNat_eq_zero_iff, toNat_eq_zero_iff]

/-- Settles O44: the inverse that FINV uses is the only one in [1, m-1] and the answer of both algorithms; RANGE
comes before DOMAIN. -/
theorem finvInverts : Obligations.FinvInverts := by
  intro s d a m hi
  have ho := outcome_finv s.operands hi
  refine ⟨encode_and_mask (Laws.Row.finv d a m) hi (r := ⟨"FINV", 0x00000004#32, 0xFFEF88FF#32⟩)
    (by decide) rfl, fun hlt h0 => ?_, fun h => exec_errored (ho.trans (finvBody_of_le h)),
    fun h => exec_errored (ho.trans (finvBody_of_zero h))⟩
  have h1 : 1 ≤ (s.operands.getF a).toNat := Nat.one_le_iff_ne_zero.2 (mt toNat_eq_zero_iff.1 h0)
  obtain ⟨hr, hinv⟩ := invMod_spec m h1 hlt
  have hr0 : invMod m.value (s.operands.getF a).toNat ≠ 0 := fun h => by simp [h] at hinv
  obtain ⟨t, ht, hw⟩ := exec_wroteField (ho.trans (finvBody_of_lt hlt h0)) (isFieldReg_of_unary hi)
    (hr.trans (Modulus_value_bounds m).1)
  exact ⟨t, _, ht, hw, Nat.one_le_iff_ne_zero.2 hr0, hr, hinv, Bool.eq_false_iff.2 (mt hw.z_iff.1 hr0),
    fun r' _ hr' h' => eq_invMod m h1 hlt hr' h', fun alg => inverseBy_eq_invMod m alg h1 hlt⟩

/-- Settles O45: each algorithm answers an inverse in [0, m), and there is only one. -/
theorem inversionAlgorithmsAgree : Obligations.InversionAlgorithmsAgree := by
  intro m a alg h1 h2
  obtain ⟨-, hinv⟩ := inverseBy_spec m alg h1 h2
  exact ⟨inverseBy_eq_invMod m alg h1 h2, hinv⟩

/-- Settles O46: no value is refused, and twice m is above every value. -/
theorem fredReduces : Obligations.FredReduces := by
  intro s d a m hi
  have hlt := Nat.mod_lt (s.operands.getF a).toNat (Modulus_value_pos m)
  obtain ⟨t, ht, hw⟩ := exec_wroteField (outcome_fred s.operands hi) (isFieldReg_of_unary hi)
    (hlt.trans (Modulus_value_bounds m).1)
  exact ⟨encode_and_mask (Laws.Row.fred d a m) hi (r := ⟨"FRED", 0x00000005#32, 0xFFEF88FF#32⟩)
    (by decide) rfl, t, _, ht, hw, rfl, mod_eq_or_mod_add_eq m _⟩

/-- Settles O47: a completion without error wrote a reduced result, for an error would leave ERR = 1. -/
theorem fieldResultsAreReduced : Obligations.FieldResultsAreReduced := by
  intro s t i d m hi hfield _ ht herr
  rw [exec_eq] at ht
  obtain rfl := Host.Outcome.next.inj ht
  obtain ⟨hd, ⟨c, hc⟩ | ⟨r, hr, hok⟩⟩ := IsFieldCommand.errorOrReduced hfield hi s.operands
  · rw [hc] at herr
    cases herr
  · have hw := wroteField_complete s hd (hr.trans (Modulus_value_bounds m).1)
    rw [hok, ← toNat_eq_zero_iff, hw.value]
    exact ⟨hr, hw.z_iff⟩

end Sys2Proof.Proofs.FieldCommands
end

section
/-! PROOFS. Point operands, the group law, and the point commands PCHK, PADD and PDBL (R61 to R67). -/

namespace Sys2Proof.Machine
open Laws.GroupLaw (ppos)

/-! ### Reading a point operand -/

theorem modInt_eq_zero_iff (t : Int) {m : Nat} (hm : 0 < m) : modInt t m = 0 ↔ t % m = 0 := by
  rw [← modInt_cast t hm, Int.natCast_eq_zero]

/-- The curve test as R61 writes it, in exact integers. -/
theorem onCurve_iff_emod (x y : Nat) :
    onCurve x y = true ↔ ((y * y : Int) - (x * x * x + 7)) % Config.curveP = 0 := by
  rw [onCurve, beq_iff_eq, modInt_eq_zero_iff _ ppos]
  simp [Config.curveA, Config.curveB]

section
variable {r : PointReg}

theorem pointOf_of_inf (h : r.inf = true) : pointOf r = .ok .infinity := if_pos h

theorem pointOf_of_le (h : r.inf = false) (hc : Config.curveP ≤ r.x.toNat ∨ Config.curveP ≤ r.y.toNat) :
    pointOf r = .error .range := by
  rw [pointOf, if_neg (Bool.eq_false_iff.1 h), if_pos hc]

theorem pointOf_of_lt (h : r.inf = false) (hx : r.x.toNat < Config.curveP) (hy : r.y.toNat < Config.curveP) :
    pointOf r = if onCurve r.x.toNat r.y.toNat then .ok (.affine r.x.toNat r.y.toNat) else .error .curve := by
  rw [pointOf, if_neg (Bool.eq_false_iff.1 h), if_neg (not_or.2 ⟨not_le.2 hx, not_le.2 hy⟩)]

/-- An operand that passes is a valid point, and is O exactly when INF = 1 (R61). -/
theorem pointOf_ok {P : Point} (h : pointOf r = .ok P) : P.Valid ∧ r.inf = decide (P = .infinity) := by
  rcases pointOf_cases r with ⟨hi, e⟩ | ⟨-, -, e⟩ | ⟨-, -, -, -, e⟩ | ⟨hi, hx, hy, hc, e⟩
  · obtain rfl := Except.ok.inj (e.symm.trans h)
    exact ⟨trivial, hi⟩
  · cases e.symm.trans h
  · cases e.symm.trans h
  · obtain rfl := Except.ok.inj (e.symm.trans h)
    exact ⟨⟨hx, hy, hc⟩, hi⟩

theorem pointOf_error {c : ErrCode} (h : pointOf r = .error c) : c = .range ∨ c = .curve := by
  rcases pointOf_cases r with ⟨-, e⟩ | ⟨-, -, e⟩ | ⟨-, -, -, -, e⟩ | ⟨-, -, -, -, e⟩
  · cases e.symm.trans h
  · exact .inl (Except.error.inj (e.symm.trans h)).symm
  · exact .inr (Except.error.inj (e.symm.trans h)).symm
  · cases e.symm.trans h

end

/-- 7 is no square modulo p, so no point of the curve has x = 0 (R67): p is a square modulo 7, and both primes
are 3 modulo 4. -/
theorem onCurve_zero_left (y : Nat) : onCurve 0 y = false := by
  have : Fact Config.curveP.Prime := ⟨curveP_prime⟩
  have : Fact (Nat.Prime 7) := ⟨by decide⟩
  have hsq : IsSquare ((Config.curveP : Nat) : ZMod 7) :=
    ⟨(1 : Nat), by rw [← Nat.cast_mul, ZMod.natCast_eq_natCast_iff']; decide⟩
  have h7 := ZMod.exists_sq_eq_prime_iff_of_mod_four_eq_three (p := Config.curveP) (q := 7) (by decide)
    (by decide) (by decide)
  refine Bool.eq_false_iff.2 fun h => h7.1 ⟨y, ?_⟩ hsq
  have hy := (onCurve_iff 0 y).1 h
  push_cast at hy ⊢
  linear_combination -hy

/-! ### The cases of the group law -/

theorem pointAdd_infinity_right (P : Point) : pointAdd P .infinity = .ok P := by
  cases P <;> rfl

/-- The group law's test for opposite y (R62). -/
theorem eq_modInt_neg_iff {y1 : Nat} (y2 : Nat) {m : Nat} (h : y1 < m) :
    y1 = modInt (-(y2 : Int)) m ↔ (y1 + y2) % m = 0 := by
  have hm : 0 < m := by omega
  have hdvd : (y1 + y2) % m = 0 ↔ (m : Int) ∣ -(y2 : Int) - y1 := by
    rw [← Nat.dvd_iff_mod_eq_zero, ← Int.natCast_dvd_natCast, ← dvd_neg, Nat.cast_add, neg_add_rev,
      sub_eq_add_neg]
  rw [hdvd]
  exact ⟨fun e => e ▸ modInt_dvd _ hm, fun hd => (modInt_unique h hd).symm⟩

/-- v / u modulo p, as the group law computes the slope of a chord or a tangent (R62). -/
def quotientModP (v u : Int) : Nat := modInt (v * invMod Config.curveP (modInt u Config.curveP)) Config.curveP

theorem dvd_quotientModP_mul_sub {v u : Int} (hu : modInt u Config.curveP ≠ 0) :
    (Config.curveP : Int) ∣ quotientModP v u * u - v := by
  have : Fact Config.curveP.Prime := ⟨curveP_prime⟩
  have ht := cast_modInt u ppos
  have hu0 := cast_ne_zero (Nat.one_le_iff_ne_zero.2 hu) (modInt_lt u ppos)
  have hinv := cast_invMod curveP_prime (by decide) hu0
  rw [ht] at hu0 hinv
  rw [← ZMod.intCast_zmod_eq_zero_iff_dvd]
  push_cast
  rw [quotientModP, cast_modInt _ ppos]
  push_cast
  rw [hinv, inv_mul_cancel_right₀ hu0, sub_self]

section
variable {x1 y1 x2 y2 : Nat}

theorem pointAdd_opposite (hy1 : y1 < Config.curveP) (h : (y1 + y2) % Config.curveP = 0) :
    pointAdd (.affine x1 y1) (.affine x1 y2) = .ok .infinity :=
  if_pos ⟨rfl, (eq_modInt_neg_iff y2 hy1).2 h⟩

theorem modInt_two_mul_ne_zero (h : (y1 + y1) % Config.curveP ≠ 0) :
    modInt (2 * (y1 : Int)) Config.curveP ≠ 0 := by
  rwa [← Nat.two_mul, ← modInt_natCast, Nat.cast_mul] at h

theorem modInt_sub_ne_zero (hx1 : x1 < Config.curveP) (hx2 : x2 < Config.curveP) (h : x1 ≠ x2) :
    modInt ((x2 : Int) - x1) Config.curveP ≠ 0 := by
  rw [Ne, modInt_eq_zero_iff _ ppos, ← Int.emod_eq_emod_iff_emod_sub_eq_zero, ← Int.natCast_mod,
    ← Int.natCast_mod, Int.natCast_inj, Nat.mod_eq_of_lt hx1, Nat.mod_eq_of_lt hx2]
  exact h.symm

theorem pointAdd_tangent (hy1 : y1 < Config.curveP) (h : (y1 + y1) % Config.curveP ≠ 0) :
    pointAdd (.affine x1 y1) (.affine x1 y1) =
      .ok (chordPoint (quotientModP (3 * (x1 : Int) * x1 + Config.curveA) (2 * y1)) x1 y1 x1) := by
  rw [pointAdd, if_neg fun e => h ((eq_modInt_neg_iff y1 hy1).1 e.2), if_pos ⟨rfl, rfl⟩]
  exact if_neg (modInt_two_mul_ne_zero h)

theorem pointAdd_chord (hx1 : x1 < Config.curveP) (hx2 : x2 < Config.curveP) (h : x1 ≠ x2) :
    pointAdd (.affine x1 y1) (.affine x2 y2) =
      .ok (chordPoint (quotientModP ((y2 : Int) - y1) ((x2 : Int) - x1)) x1 y1 x2) := by
  rw [pointAdd, if_neg fun e => h e.1, if_neg fun e => h e.1]
  exact if_neg (modInt_sub_ne_zero hx1 hx2 h)

/-- The DOMAIN line of R62: one x with unrelated y, which no operands that pass have (R63). -/
theorem pointAdd_domain (hy1 : y1 < Config.curveP) (h : y1 ≠ y2) (h' : (y1 + y2) % Config.curveP ≠ 0) :
    pointAdd (.affine x1 y1) (.affine x1 y2) = .error .domain := by
  rw [pointAdd, if_neg fun e => h' ((eq_modInt_neg_iff y2 hy1).1 e.2), if_neg fun e => h e.2]
  exact if_pos (by simp [modInt])

end

/-- The third point of R62 from its slope, as congruences. -/
theorem chordPoint_spec (lam x1 y1 x2 : Nat) :
    ∃ x3 y3 : Nat, chordPoint lam x1 y1 x2 = .affine x3 y3 ∧ x3 < Config.curveP ∧ y3 < Config.curveP ∧
      (Config.curveP : Int) ∣ (lam : Int) * lam - x1 - x2 - x3 ∧
      (Config.curveP : Int) ∣ (lam : Int) * (x1 - x3) - y1 - y3 :=
  ⟨_, _, rfl, modInt_lt _ ppos, modInt_lt _ ppos, modInt_dvd _ ppos, modInt_dvd _ ppos⟩

/-! ### The group law on valid points -/

section
open Laws.GroupLaw Proofs.GroupOrder
variable [Fact Config.curveP.Prime]

/-- On valid points the group law is the addition of the curve's group (R64). -/
theorem pointAdd_eq_ok_iff {P Q R : Point} (hP : P.Valid) (hQ : Q.Valid) :
    pointAdd P Q = .ok R ↔ R.Valid ∧ toM R = toM P + toM Q := by
  obtain ⟨T, hT, vT, mT⟩ := add_spec P Q hP hQ
  rw [hT, Except.ok.injEq]
  constructor
  · rintro rfl
    exact ⟨vT, mT⟩
  · rintro ⟨vR, mR⟩
    exact toM_inj vT vR (mT.trans mR.symm)

theorem pointAdd_neg {P : Point} (hP : P.Valid) : pointAdd P P.neg = .ok .infinity := by
  obtain ⟨vN, mN⟩ := neg_spec hP
  rw [pointAdd_eq_ok_iff hP vN, mN, add_neg_cancel]
  exact ⟨trivial, rfl⟩

/-- Only O doubles to O (R66). -/
theorem double_eq_infinity_iff {P R : Point} (hP : P.Valid) (h : pointAdd P P = .ok R) :
    R = .infinity ↔ P = .infinity := by
  constructor
  · rintro rfl
    obtain ⟨-, hm⟩ := (pointAdd_eq_ok_iff hP hP).1 h
    exact toM_inj hP trivial (no_two_torsion _ ((two_nsmul _).trans hm.symm))
  · rintro rfl
    exact (Except.ok.inj h).symm

/-- Points of the curve with one x have equal or opposite y: their y have one square (R63). -/
theorem y_eq_or_opposite {x y1 y2 : Nat} (h1 : (Point.affine x y1).Valid) (h2 : (Point.affine x y2).Valid) :
    y1 = y2 ∨ (y1 + y2) % Config.curveP = 0 := by
  obtain ⟨-, hy1, hc1⟩ := h1
  obtain ⟨-, hy2, hc2⟩ := h2
  rw [onCurve_iff] at hc1 hc2
  refine (sq_eq_sq_iff_eq_or_eq_neg.1 (hc1.trans hc2.symm)).imp (castInj hy1 hy2) fun h => ?_
  rw [← Nat.dvd_iff_mod_eq_zero, ← ZMod.natCast_eq_zero_iff, Nat.cast_add, h, neg_add_cancel]

end

theorem Point.Valid.y_ne_zero {x y : Nat} (h : (Point.affine x y).Valid) : y ≠ 0 := by
  have : Fact Config.curveP.Prime := ⟨curveP_prime⟩
  obtain ⟨-, -, hc⟩ := h
  rintro rfl
  exact Laws.GroupLaw.y_ne_zero hc

theorem Point.Valid.two_mul_y_ne_zero {x y : Nat} (h : (Point.affine x y).Valid) :
    2 * y % Config.curveP ≠ 0 := by
  have hy0 := h.y_ne_zero
  obtain ⟨-, hy, -⟩ := h
  rw [Ne, ← Nat.dvd_iff_mod_eq_zero, curveP_prime.dvd_mul, not_or]
  exact ⟨by decide, fun hd => hy0 (Nat.eq_zero_of_dvd_of_lt hd hy)⟩

/-! ### What a completed point command leaves -/

theorem holds_toReg {R : Point} (hR : R.Valid) : Holds R.toReg R := by
  cases R with
  | infinity => exact ⟨rfl, rfl, rfl⟩
  | affine x y =>
    obtain ⟨hx, hy, -⟩ := hR
    exact toReg_affine hx hy

theorem wrotePoint_complete (s : State) {d : RegField} {R : Point} (hd : isPointReg d = true) (hR : R.Valid) :
    WrotePoint s (s.complete (.ok (pointEffect d R))) d R where
  value := by
    rw [State.complete_ok, State.completeOk_regs]
    exact (s.regs.getP_setP_self d R.toReg hd).symm ▸ holds_toReg hR
  otherPoints j hj := s.regs.getP_setP_ne d j R.toReg hj
  fields _ := rfl
  rest := rfl

/-- The destination of PADD (R46). -/
theorem isPointReg_of_padd {d a b : RegField} (hi : (Instr.padd d a b).wellFormed = true) :
    isPointReg d = true := by
  rw [Instr.wellFormed, Bool.and_eq_true, Bool.and_eq_true] at hi
  obtain ⟨⟨hd, -⟩, -⟩ := hi
  exact hd

theorem exec_wrotePoint {s : State} {i : Instr} {d : RegField} {R : Point}
    (h : outcome i s.operands = .ok (pointEffect d R)) (hd : isPointReg d = true) (hR : R.Valid) :
    ∃ t, exec i s = .next t ∧ WrotePoint s t d R :=
  ⟨_, exec_eq i s, h ▸ wrotePoint_complete s hd hR⟩

/-- An operand's error is a command's, when the command's outcome is that error (R61, R81). -/
theorem exec_operand_errored {s : State} {i : Instr} {c : ErrCode} {a : RegField}
    (ha : pointOperand s.operands a = .error c) (h : outcome i s.operands = .error c) :
    ∃ t, exec i s = .next t ∧ Errored s t c.code ∧ (c = .range ∨ c = .curve) := by
  obtain ⟨t, ht, he⟩ := exec_errored h
  exact ⟨t, ht, he, pointOf_error ha⟩

/-! ### PADD, PDBL and PCHK -/

section
variable {d a b : RegField} {S : RegFiles}

theorem outcome_padd (hi : (Instr.padd d a b).wellFormed = true) :
    outcome (.padd d a b) S = paddBody d a b S := if_pos hi

theorem outcome_pdbl (hi : (Instr.pdbl d a).wellFormed = true) :
    outcome (.pdbl d a) S = pdblBody d a S := if_pos hi

theorem outcome_pchk (hi : (Instr.pchk a).wellFormed = true) :
    outcome (.pchk a) S = pchkBody a S := if_pos hi

theorem paddBody_of_ok {P Q R : Point} (ha : pointOperand S a = .ok P) (hb : pointOperand S b = .ok Q)
    (hR : pointAdd P Q = .ok R) : paddBody d a b S = .ok (pointEffect d R) := by
  simp only [paddBody, ha, hb, hR, bind, Except.bind]

theorem paddBody_of_error_left {c : ErrCode} (ha : pointOperand S a = .error c) :
    paddBody d a b S = .error c := by
  rw [paddBody, ha]
  rfl

/-- B is checked only when A passed (R65). -/
theorem paddBody_of_error_right {P : Point} {c : ErrCode} (ha : pointOperand S a = .ok P)
    (hb : pointOperand S b = .error c) : paddBody d a b S = .error c := by
  rw [paddBody, ha, hb]
  rfl

/-- PDBL is PADD of the operand with itself (R66). -/
theorem pdblBody_eq : pdblBody d a S = paddBody d a a S := by
  rw [pdblBody, paddBody]
  cases pointOperand S a <;> rfl

theorem pchkBody_of_ok {P : Point} (ha : pointOperand S a = .ok P) : pchkBody a S = .ok (checkEffect P) := by
  rw [pchkBody, ha]
  rfl

theorem pchkBody_of_error {c : ErrCode} (ha : pointOperand S a = .error c) : pchkBody a S = .error c := by
  rw [pchkBody, ha]
  rfl

theorem wellFormed_padd_self (hi : (Instr.pdbl d a).wellFormed = true) :
    (Instr.padd d a a).wellFormed = true := by
  obtain ⟨hd, ha⟩ := Bool.and_eq_true_iff.1 hi
  simp [Instr.wellFormed, hd, ha]

end

/-- PADD of two operands that pass writes their sum (R65). -/
theorem exec_padd_wrotePoint {s : State} {d a b : RegField} (hi : (Instr.padd d a b).wellFormed = true)
    {P Q : Point} (ha : pointOperand s.operands a = .ok P) (hb : pointOperand s.operands b = .ok Q) :
    ∃ R t, pointAdd P Q = .ok R ∧ exec (.padd d a b) s = .next t ∧ WrotePoint s t d R := by
  have : Fact Config.curveP.Prime := ⟨curveP_prime⟩
  obtain ⟨vP, -⟩ := pointOf_ok ha
  obtain ⟨vQ, -⟩ := pointOf_ok hb
  obtain ⟨R, hR, vR, -⟩ := Laws.GroupLaw.add_spec P Q vP vQ
  have hd := isPointReg_of_padd hi
  obtain ⟨t, ht, hw⟩ := exec_wrotePoint ((outcome_padd hi).trans (paddBody_of_ok ha hb hR)) hd vR
  exact ⟨R, t, hR, ht, hw⟩

/-- PADD reports the error of its first operand (R65). -/
theorem exec_padd_errored_left {s : State} {d a b : RegField} (hi : (Instr.padd d a b).wellFormed = true)
    {c : ErrCode} (ha : pointOperand s.operands a = .error c) :
    ∃ t, exec (.padd d a b) s = .next t ∧ Errored s t c.code ∧ (c = .range ∨ c = .curve) :=
  exec_operand_errored ha ((outcome_padd hi).trans (paddBody_of_error_left ha))

/-- PDBL and PADD of the operand with itself are one command (R66). -/
theorem exec_pdbl {s : State} {d a : RegField} (hi : (Instr.pdbl d a).wellFormed = true) :
    exec (.pdbl d a) s = exec (.padd d a a) s := by
  rw [exec_eq, exec_eq, outcome_pdbl hi, outcome_padd (wellFormed_padd_self hi), pdblBody_eq]

end Sys2Proof.Machine

namespace Sys2Proof.Proofs.PointAdd
open Sys2Proof Sys2Proof.Machine Sys2Proof.Laws.GroupLaw Sys2Proof.Proofs.GroupOrder

/-- Settles O48: the three tests of R61 in their order, the curve test as exact integers. -/
theorem pointOperandChecks : Obligations.PointOperandChecks := by
  rintro S i r rfl
  refine ⟨pointOf_of_inf, pointOf_of_le, fun h hx hy => ?_⟩
  rw [Ne, ← onCurve_iff_emod, pointOperand, pointOf_of_lt h hx hy]
  exact ⟨fun hc => if_neg hc, fun hc => if_pos hc⟩

/-- Settles O49: the operand's check decides, and 7 is no square modulo p, so x = 0 never passes. -/
theorem pchkChecksAPoint : Obligations.PchkChecksAPoint := by
  intro s a hi
  have herr : ∀ c, pointOperand s.operands a = .error c →
      ∃ t, exec (.pchk a) s = .next t ∧ Errored s t c.code ∧ (c = .range ∨ c = .curve) :=
    fun c hc => exec_operand_errored hc ((outcome_pchk hi).trans (pchkBody_of_error hc))
  refine ⟨encode_and_mask (Laws.Row.pchk a) hi (r := ⟨"PCHK", 0x00000013#32, 0xFFFFCFFF#32⟩) (by decide) rfl,
    fun P hP => ?_, herr, fun y hy => ?_, fun hreg => ?_⟩
  · obtain ⟨-, hinf⟩ := pointOf_ok hP
    refine ⟨_, exec_eq _ s, ?_⟩
    rw [outcome_pchk hi, pchkBody_of_ok hP, hinf]
    rfl
  · obtain ⟨⟨-, -, hc⟩, -⟩ := pointOf_ok hy
    rw [onCurve_zero_left] at hc
    cases hc
  · have hcurve : pointOperand s.operands a = .error .curve := by
      rw [pointOperand, hreg, pointOf_of_lt rfl (by decide) (by decide)]
      exact if_neg (Bool.eq_false_iff.1 (onCurve_zero_left 0))
    obtain ⟨t, ht, he, -⟩ := herr _ hcurve
    exact ⟨t, ht, he⟩

/-- Settles O50: each case is the branch of R62 that its hypotheses select; the slope is a quotient modulo p. -/
theorem groupLawCases : Obligations.GroupLawCases := by
  refine ⟨fun _ => rfl, pointAdd_infinity_right, fun x1 y1 x2 y2 hx1 hy1 hx2 hy2 => ⟨?_, ?_, ?_⟩⟩
  · rintro rfl hopp
    exact pointAdd_opposite hy1 hopp
  · intro h
    rcases eq_or_ne x1 x2 with rfl | hx
    · obtain ⟨rfl, h0⟩ := h.resolve_left (absurd rfl)
      obtain ⟨x3, y3, e, hx3, hy3, hdx, hdy⟩ :=
        chordPoint_spec (quotientModP (3 * (x1 : Int) * x1 + Config.curveA) (2 * y1)) x1 y1 x1
      refine ⟨_, x3, y3, (pointAdd_tangent hy1 h0).trans (congrArg _ e), hx3, hy3, hdx, hdy, fun _ => ?_,
        absurd rfl⟩
      simpa [Config.curveA] using dvd_quotientModP_mul_sub (v := 3 * (x1 : Int) * x1 + Config.curveA)
        (modInt_two_mul_ne_zero h0)
    · obtain ⟨x3, y3, e, hx3, hy3, hdx, hdy⟩ :=
        chordPoint_spec (quotientModP ((y2 : Int) - y1) ((x2 : Int) - x1)) x1 y1 x2
      exact ⟨_, x3, y3, (pointAdd_chord hx1 hx2 hx).trans (congrArg _ e), hx3, hy3, hdx, hdy,
        fun e => absurd e hx, fun _ => dvd_quotientModP_mul_sub (modInt_sub_ne_zero hx1 hx2 hx)⟩
  · rintro rfl hne hopp
    exact pointAdd_domain hy1 hne hopp

/-- Settles O51: on valid points the group law is total, because no point of the curve has y = 0 and two of one
x have equal or opposite y. -/
theorem groupLawNeverRaisesDomain : Obligations.GroupLawNeverRaisesDomain := by
  have : Fact Config.curveP.Prime := ⟨curveP_prime⟩
  refine ⟨fun P Q hP hQ => ?_, fun x y h => ⟨h.y_ne_zero, h.two_mul_y_ne_zero⟩,
    fun x y1 y2 => y_eq_or_opposite, fun S i P h => (pointOf_ok h).1⟩
  obtain ⟨R, hR, -⟩ := add_spec P Q hP hQ
  exact ⟨R, hR⟩

/-- Settles O52: the addition of the curve's group is commutative and has the identity and the inverses. -/
theorem groupLawClosedAndCommutative : Obligations.GroupLawClosedAndCommutative := by
  have : Fact Config.curveP.Prime := ⟨curveP_prime⟩
  intro P Q R hP hQ h
  obtain ⟨vR, mR⟩ := (pointAdd_eq_ok_iff hP hQ).1 h
  obtain ⟨vN, -⟩ := neg_spec hP
  exact ⟨vR, (pointAdd_eq_ok_iff hQ hP).2 ⟨vR, mR.trans (add_comm _ _)⟩, pointAdd_infinity_right P, rfl, vN,
    pointAdd_neg hP⟩

/-- Settles O53: the addition of the curve's group is associative. -/
theorem groupLawAssociative : Obligations.GroupLawAssociative := by
  have : Fact Config.curveP.Prime := ⟨curveP_prime⟩
  intro P Q R A B hP hQ hR hA hB
  obtain ⟨vA, mA⟩ := (pointAdd_eq_ok_iff hP hQ).1 hA
  obtain ⟨vB, mB⟩ := (pointAdd_eq_ok_iff hQ hR).1 hB
  obtain ⟨T, hT, vT, mT⟩ := add_spec A R vA hR
  refine ⟨T, hT, (pointAdd_eq_ok_iff hP vB).2 ⟨vT, ?_⟩⟩
  rw [mT, mA, mB, add_assoc]

/-- Settles O54: two operands that pass have a sum; else the first operand that fails decides. -/
theorem paddAddsPoints : Obligations.PaddAddsPoints := fun _ d a b hi =>
  ⟨encode_and_mask (Laws.Row.padd d a b) hi (r := ⟨"PADD", 0x00000010#32, 0xFFFCCCFF#32⟩) (by decide) rfl,
    fun _ _ => exec_padd_wrotePoint hi, fun _ => exec_padd_errored_left hi,
    fun _ _ ha hb => exec_operand_errored hb ((outcome_padd hi).trans (paddBody_of_error_right ha hb))⟩

/-- Settles O55: PDBL is PADD of the operand with itself, and the curve has no point of order 2. -/
theorem pdblDoublesAPoint : Obligations.PdblDoublesAPoint := by
  have : Fact Config.curveP.Prime := ⟨curveP_prime⟩
  intro s d a hi
  have hi' := wellFormed_padd_self hi
  have heq := exec_pdbl (s := s) hi
  refine ⟨encode_and_mask (Laws.Row.pdbl d a) hi (r := ⟨"PDBL", 0x00000011#32, 0xFFFFCCFF#32⟩)
    (by decide) rfl, heq, fun Pa ha => ?_, fun c ha => heq ▸ exec_padd_errored_left hi' ha⟩
  obtain ⟨R, t, hR, ht, hw⟩ := exec_padd_wrotePoint hi' ha ha
  obtain ⟨vP, -⟩ := pointOf_ok ha
  exact ⟨R, t, hR, heq.trans ht, hw, double_eq_infinity_iff vP hR⟩

end Sys2Proof.Proofs.PointAdd
end

section
/-! PROOFS. Scalar point multiplication: mul(k, P) as a multiple in the curve's group, the four algorithms, and
PMUL (R68 to R71). -/

namespace Sys2Proof.Machine

/-! ### mul(k, P) -/

/-- mul(k, P) depends on k modulo n only, since k is reduced first (R68). -/
theorem scalarMul_mod (k : Nat) (P : Point) : scalarMul (k % Config.curveN) P = scalarMul k P := by
  rw [scalarMul, Nat.mod_mod, ← scalarMul]

theorem scalarMul_sub_curveN {k : Nat} (P : Point) (h : Config.curveN ≤ k) :
    scalarMul (k - Config.curveN) P = scalarMul k P := by
  rw [← scalarMul_mod k, Nat.mod_eq_sub_mod h, scalarMul_mod]

theorem mod_curveN_lt (k : Nat) : k % Config.curveN < 2 ^ 256 :=
  (Nat.mod_lt k (by decide)).trans (by decide)

/-- The digits of the fixed window cover 256 bits, whatever their width (R69). -/
theorem le_mul_windowDigits {w : Nat} (hw : 0 < w) : 256 ≤ w * windowDigits w := by
  have h : 255 + w < w * (windowDigits w + 1) := Nat.lt_mul_div_succ (255 + w) hw
  rw [Nat.mul_succ] at h
  omega

section
open Laws.GroupLaw Proofs.GroupOrder
variable [Fact Config.curveP.Prime] {P R : Point}

/-- On a valid point mul(k, P) is the multiple in the curve's group (R68). -/
theorem scalarMul_eq_ok_iff (k : Nat) (hP : P.Valid) :
    scalarMul k P = .ok R ↔ R.Valid ∧ toM R = (k % Config.curveN) • toM P := by
  obtain ⟨T, hT, vT, mT⟩ := scalarMul_spec k hP
  rw [hT, Except.ok.injEq]
  constructor
  · rintro rfl
    exact ⟨vT, mT⟩
  · rintro ⟨vR, mR⟩
    exact toM_inj vT vR (mT.trans mR.symm)

theorem scalarMul_eq_multiple (k : Nat) (hP : P.Valid) :
    scalarMul k P = multiple P (k % Config.curveN) := by
  obtain ⟨T, hT, hspec⟩ := multiple_spec (k % Config.curveN) hP
  rw [hT, scalarMul_eq_ok_iff k hP]
  exact hspec

theorem scalarMul_eq_infinity {k : Nat} (hP : P.Valid) (h : k % Config.curveN = 0 ∨ P = .infinity) :
    scalarMul k P = .ok .infinity := by
  rw [scalarMul_eq_ok_iff k hP]
  refine ⟨trivial, ?_⟩
  rcases h with h0 | rfl
  · rw [h0, zero_nsmul]
    rfl
  · exact (nsmul_zero _).symm

theorem scalarMul_one (hP : P.Valid) : scalarMul 1 P = .ok P := by
  rw [scalarMul_eq_ok_iff 1 hP, Nat.mod_eq_of_lt (by decide), one_nsmul]
  exact ⟨hP, rfl⟩

/-! ### The algorithms of SMUL_ALG -/

/-- Each algorithm starts at O and covers every bit of k mod n (R69). -/
theorem scalarMulBy_spec {w : Nat} (hw : 0 < w) (alg : Config.SmulAlg) (k : Nat) (hP : P.Valid) :
    ∃ T, scalarMulBy w alg k P = .ok T ∧ T.Valid ∧ toM T = (k % Config.curveN) • toM P := by
  have hO : toM .infinity = 0 := rfl
  have hk := mod_curveN_lt k
  cases alg with
  | daMsb => exact scalarMul_spec k hP
  | daLsb =>
    have := lsbLoop_spec (k % Config.curveN) 256 0 .infinity P trivial hP
    rwa [hO, zero_add, pow_zero, Nat.div_one, Nat.mod_eq_of_lt hk] at this
  | window =>
    have hlt := hk.trans_le (Nat.pow_le_pow_right two_pos (le_mul_windowDigits hw))
    have := windowLoop_spec w (k % Config.curveN) hP (windowDigits w) .infinity trivial
    rwa [hO, nsmul_zero, zero_add, Nat.mod_eq_of_lt hlt] at this
  | ladder =>
    have := ladderLoop_spec (P := P) (k % Config.curveN) 256 .infinity P trivial hP (by rw [hO, zero_add])
    rwa [hO, nsmul_zero, zero_add, Nat.mod_eq_of_lt hk] at this

theorem scalarMulBy_eq_scalarMul {w : Nat} (hw : 0 < w) (alg : Config.SmulAlg) (k : Nat) (hP : P.Valid) :
    scalarMulBy w alg k P = scalarMul k P := by
  obtain ⟨T, hT, hspec⟩ := scalarMulBy_spec hw alg k hP
  rw [hT, (scalarMul_eq_ok_iff k hP).2 hspec]

end

/-! ### PMUL -/

section
variable {d a b : RegField} {S : RegFiles}

theorem outcome_pmul (hi : (Instr.pmul d a b).wellFormed = true) :
    outcome (.pmul d a b) S = pmulBody d a b S := if_pos hi

theorem pmulBody_of_ok {P R : Point} (hb : pointOperand S b = .ok P)
    (hR : scalarMul (S.getF a).toNat P = .ok R) : pmulBody d a b S = .ok (pointEffect d R) := by
  simp only [pmulBody, anyOperand, hb, hR, bind, Except.bind]

/-- The point is checked whatever the scalar is (R71). -/
theorem pmulBody_of_error {c : ErrCode} (hb : pointOperand S b = .error c) :
    pmulBody d a b S = .error c := by
  rw [pmulBody, hb]
  rfl

/-- The destination of PMUL (R46). -/
theorem isPointReg_of_pmul (hi : (Instr.pmul d a b).wellFormed = true) : isPointReg d = true := by
  rw [Instr.wellFormed, Bool.and_eq_true, Bool.and_eq_true] at hi
  obtain ⟨⟨hd, -⟩, -⟩ := hi
  exact hd

end

/-- PMUL of a point that passes writes its multiple (R71). -/
theorem exec_pmul_wrotePoint {s : State} {d a b : RegField} (hi : (Instr.pmul d a b).wellFormed = true)
    {P R : Point} (hb : pointOperand s.operands b = .ok P)
    (hR : scalarMul (s.operands.getF a).toNat P = .ok R) (vR : R.Valid) :
    ∃ t, exec (.pmul d a b) s = .next t ∧ WrotePoint s t d R :=
  exec_wrotePoint ((outcome_pmul hi).trans (pmulBody_of_ok hb hR)) (isPointReg_of_pmul hi) vR

end Sys2Proof.Machine

namespace Sys2Proof.Proofs.ScalarMul
open Sys2Proof Sys2Proof.Machine Sys2Proof.Laws.GroupLaw Sys2Proof.Proofs.GroupOrder

/-- Settles O57: a point that passes has a multiple, which the listed scalars determine; else its error
decides. -/
theorem pmulMultipliesPoints : Obligations.PmulMultipliesPoints := by
  have : Fact Config.curveP.Prime := ⟨curveP_prime⟩
  intro s d a b hi
  refine ⟨encode_and_mask (Laws.Row.pmul d a b) hi (r := ⟨"PMUL", 0x00000012#32, 0xFFFC8CFF#32⟩)
      (by decide) rfl,
    fun Pb hb => ?_, fun c hb => exec_operand_errored hb ((outcome_pmul hi).trans (pmulBody_of_error hb))⟩
  obtain ⟨vP, -⟩ := pointOf_ok hb
  obtain ⟨R, hR, vR, -⟩ := scalarMul_spec (s.operands.getF a).toNat vP
  obtain ⟨t, ht, hw⟩ := exec_pmul_wrotePoint hi hb hR vR
  have eq_of {Q : Point} (hQ : scalarMul (s.operands.getF a).toNat Pb = .ok Q) : R = Q :=
    Except.ok.inj (hR.symm.trans hQ)
  refine ⟨R, t, hR, vR, ht, hw, fun h => eq_of (scalarMul_eq_infinity vP h), fun h => eq_of ?_,
    fun h => eq_of ?_, fun h => (scalarMul_sub_curveN Pb h).trans hR⟩
  · rw [h, scalarMul_one vP]
  · rw [h, scalarMul_pred_curveN vP]

/-- Settles O58: the loop and the sum are one multiple in the curve's group. -/
theorem scalarProductIsTheFoldedSum : Obligations.ScalarProductIsTheFoldedSum := by
  have : Fact Config.curveP.Prime := ⟨curveP_prime⟩
  exact fun k P hP =>
    ⟨scalarMul_eq_multiple k hP, scalarMul_eq_infinity hP, scalarMul_one hP, scalarMul_mod k P⟩

/-- Settles O59: every algorithm computes the same multiple in the curve's group. -/
theorem scalarAlgorithmsAgree : Obligations.ScalarAlgorithmsAgree := by
  have : Fact Config.curveP.Prime := ⟨curveP_prime⟩
  intro w k P alg hw hP
  obtain ⟨R, hR, vR, -⟩ := scalarMul_spec k hP
  exact ⟨R, hR, vR, (scalarMulBy_eq_scalarMul hw alg k hP).trans hR⟩

end Sys2Proof.Proofs.ScalarMul
end

section
/-! PROOFS. The life of a command: its acceptance, the step that completes it, that it completes unless a reset comes
first, and what it leaves unchanged (R72 to R78). -/

namespace Sys2Proof.Machine

/-! ### Acceptance and completion -/

theorem wordOutcome_of_decode {w : Word} {i : Instr} (h : decode w = .instr i) (S : RegFiles) :
    wordOutcome w S = outcome i S := by
  rw [wordOutcome, h]

theorem ofNat_mod_two_pow_32 (w : Nat) : BitVec.ofNat 32 (w % 2 ^ 32) = BitVec.ofNat 32 w :=
  BitVec.eq_of_toNat_eq (by rw [BitVec.toNat_ofNat, BitVec.toNat_ofNat, Nat.mod_mod])

theorem withFetchWord_eq (s : State) (w : Nat) : s.withFetchWord 32 w = placeCommand s (BitVec.ofNat 32 w) :=
  congrArg (placeCommand s) (ofNat_mod_two_pow_32 w)

theorem decode_of_decodeTableWord {w : Nat} {i : Instr} (h : decodeTableWord 32 w = some i) :
    decode (BitVec.ofNat 32 w) = .instr i := by
  rw [decodeTableWord, ofNat_mod_two_pow_32] at h
  split at h
  next j hj =>
    obtain rfl := Option.some.inj h
    exact hj
  next => simp at h

/-- The command in flight is run by the step that completes it (R75). -/
theorem step_of_decode {s : State} {l : Latch} {i : Instr} (now : s.completesNow) (hl : s.latch = some l)
    (hi : decode l.word = .instr i) : step s = exec i { s with turns := s.turns.tail } := by
  have hops : State.operands { s with turns := s.turns.tail } = l.snapshot := State.operands_of_latch hl
  rw [step_of_completesNow now hl, wordOutcome_of_decode hi, exec_eq, hops]

/-! ### Completion in a bounded number of steps -/

/-- No reset is among the moves, and every access is within the window (R76). -/
structure NoResetAmong (ts : List Turn) : Prop where
  noInput : Turn.hardReset ∉ ts
  inWindow : ∀ a, Turn.access a ∈ ts → a.off < 0x1000
  noSoftReset : ∀ v, hostWrite 0x008 v ∈ ts → v.getLsbD 1 = false

theorem NoResetAmong.tail {ts : List Turn} (h : NoResetAmong ts) : NoResetAmong ts.tail where
  noInput hm := h.noInput (List.mem_of_mem_tail hm)
  inWindow a hm := h.inWindow a (List.mem_of_mem_tail hm)
  noSoftReset v hm := h.noSoftReset v (List.mem_of_mem_tail hm)

/-- A command is in flight, with at most `n` pending moves and cycles left together. -/
def State.InFlight (s : State) (n : Nat) : Prop :=
  s.busy = true ∧ ∃ l, s.latch = some l ∧ 1 ≤ l.remaining ∧ s.turns.length + l.remaining ≤ n

/-- A host write to the busy block leaves the command in flight, unless it is a soft reset (R95, R97). -/
theorem writeWord_keeps_latch {s : State} {off : Nat} {v : Word} (hb : s.busy = true) (h4 : off % 4 = 0)
    (hlt : off < 0x1000) (hv : off = 0x008 → v.getLsbD 1 = false) :
    (writeWord s off v).busy = true ∧ (writeWord s off v).latch = s.latch ∧
      (writeWord s off v).turns = s.turns := by
  rcases writeWord_cases s v h4 hlt with ⟨h8, h1, -⟩ | ⟨-, -, e⟩ | ⟨-, e⟩ | ⟨-, idle, -⟩ | ⟨-, -, e⟩ |
    ⟨-, idle, -⟩ | ⟨-, e⟩
  · exact absurd h1 (by simp [hv h8, -BitVec.getLsbD_eq_getElem])
  · rw [e]
    exact ⟨hb, rfl, rfl⟩
  · rw [e]
    exact ⟨hb, rfl, rfl⟩
  · simp [hb] at idle
  · rw [e]
    exact ⟨hb, rfl, rfl⟩
  · simp [hb] at idle
  · rw [e]
    exact ⟨hb, rfl, rfl⟩

/-- So does every access within the window (R35, R37). -/
theorem busAccess_keeps_latch {s : State} {a : Access} (hb : s.busy = true) (hoff : a.off < 0x1000)
    (ha : ∀ v, a = ⟨0x008, .w32, .write v⟩ → v.getLsbD 1 = false) :
    ∃ t, busAccess a s = .next t ∧ t.busy = true ∧ t.latch = s.latch ∧ t.turns = s.turns := by
  rcases busAccess_cases a s hoff with ⟨-, e⟩ | ⟨-, -, e⟩ | ⟨v, hw, hk, e⟩
  · exact ⟨_, e, hb, rfl, rfl⟩
  · exact ⟨_, e, hb, rfl, rfl⟩
  · obtain ⟨h4, heq⟩ := access_eq_of_wholeWord hw
    exact ⟨_, e, writeWord_keeps_latch hb h4 hoff fun h8 => ha v (by rw [heq, hk, h8])⟩

/-- An engine turn completes the command in flight or counts one of its cycles (R26, R75). -/
theorem step_inFlight_of_engineNext {s : State} {n : Nat} (he : s.engineNext) (h : s.InFlight (n + 1)) :
    ∃ t, step s = .next t ∧
      (t.busy = false ∧ t.done = true ∨ t.turns = s.turns.tail ∧ t.InFlight n) := by
  obtain ⟨hb, l, hl, h1, hn⟩ := h
  by_cases hr : l.remaining ≤ 1
  · obtain ⟨hidle, hdone, -⟩ :=
      State.complete_idle { s with turns := s.turns.tail } (wordOutcome l.word l.snapshot)
    exact ⟨_, step_of_completesNow ⟨he, hb, l, hl, hr⟩ hl, .inl ⟨hidle, hdone⟩⟩
  · have hcount := engineTurn_of_one_lt (s := { s with turns := s.turns.tail }) hb hl (not_le.1 hr)
    have htail : s.turns.tail.length ≤ s.turns.length := (List.tail_sublist _).length_le
    refine ⟨_, (step_of_engineNext he).trans hcount, .inr ⟨rfl, hb, _, rfl, ?_, ?_⟩⟩ <;> dsimp only <;> omega

/-- Every step of a command in flight completes it, or uses up one of the moves and cycles left. -/
theorem step_inFlight {s : State} {n : Nat} (h : s.InFlight (n + 1)) (hts : NoResetAmong s.turns) :
    ∃ t, step s = .next t ∧
      (t.busy = false ∧ t.done = true ∨ t.turns = s.turns.tail ∧ t.InFlight n) := by
  match ht : s.turns with
  | [] => exact ht ▸ step_inFlight_of_engineNext (.inl ht) h
  | .engine :: rest => exact ht ▸ step_inFlight_of_engineNext (.inr ⟨rest, ht⟩) h
  | .hardReset :: rest => exact absurd (ht ▸ List.mem_cons_self) hts.noInput
  | .access a :: rest =>
    obtain ⟨hb, l, hl, h1, hn⟩ := h
    have hmem : Turn.access a ∈ s.turns := ht ▸ List.mem_cons_self
    obtain ⟨t, hstep, hb', hl', ht'⟩ := busAccess_keeps_latch (s := { s with turns := rest }) hb
      (hts.inWindow a hmem) (fun v hv => hts.noSoftReset v (by rwa [hv] at hmem))
    rw [ht, List.length_cons] at hn
    refine ⟨t, (step_of_access ht).trans hstep, .inr ⟨ht', hb', l, hl'.trans hl, h1, ?_⟩⟩
    rw [ht']
    dsimp only
    omega

theorem run_inFlight {n : Nat} {s : State} (h : s.InFlight n) (hts : NoResetAmong s.turns) :
    ∃ k t, k ≤ n ∧ Host.Core.run core k s = .next t ∧ t.busy = false ∧ t.done = true := by
  induction n generalizing s with
  | zero =>
    obtain ⟨-, l, -, h1, hn⟩ := h
    omega
  | succ n ih =>
    obtain ⟨t, hstep, hdone | ⟨hturns, hflight⟩⟩ := step_inFlight h hts
    · exact ⟨1, t, by omega, run_succ hstep 0, hdone⟩
    · obtain ⟨k, u, hk, hrun, hdone⟩ := ih hflight (hturns ▸ hts.tail)
      exact ⟨k + 1, u, by omega, (run_succ hstep k).trans hrun, hdone⟩

theorem State.Inv.inFlight {s : State} (h : s.Inv) (hb : s.busy = true) :
    s.InFlight (s.turns.length + Config.maxLatency) := by
  obtain ⟨l, hl⟩ := Option.isSome_iff_exists.1 (h.latch_iff_busy.symm.trans hb)
  obtain ⟨h1, hmax⟩ := h.cycles_left l hl
  exact ⟨hb, l, hl, h1, Nat.add_le_add_left hmax _⟩

/-! ### What a command leaves unchanged -/

/-- The register writes that a command can complete with (R75). -/
def MayWrite (i : Instr) (w : Dest) : Prop :=
  match i with
  | .fadd d _ _ _ | .fsub d _ _ _ | .fmul d _ _ _ | .finv d _ _ | .fred d _ _ => ∃ v, w = .field d v
  | .padd d _ _ | .pdbl d _ | .pmul d _ _ => ∃ R, w = .point d R
  | .nop | .pchk _ => w = .none

theorem ErrorOrReduced.write {d : RegField} {m : Modulus} {o : Result} {e : Effect} (h : ErrorOrReduced d m o)
    (he : o = .ok e) : ∃ v, e.write = .field d v := by
  subst he
  obtain ⟨c, hc⟩ | ⟨r, -, hr⟩ := h
  · cases hc
  · cases hr
    exact ⟨r, rfl⟩

theorem bind_eq_ok {α : Type} {x : Except ErrCode α} {f : α → Result} {e : Effect} :
    (x >>= f) = .ok e ↔ ∃ a, x = .ok a ∧ f a = .ok e := by
  cases x <;> simp [bind, Except.bind]

theorem paddBody_write {d a b : RegField} {S : RegFiles} {e : Effect} (h : paddBody d a b S = .ok e) :
    ∃ R, e.write = .point d R := by
  simp only [paddBody, bind_eq_ok] at h
  obtain ⟨-, -, -, -, R, -, he⟩ := h
  cases he
  exact ⟨R, rfl⟩

theorem pmulBody_write {d a b : RegField} {S : RegFiles} {e : Effect} (h : pmulBody d a b S = .ok e) :
    ∃ R, e.write = .point d R := by
  simp only [pmulBody, bind_eq_ok] at h
  obtain ⟨-, -, R, -, he⟩ := h
  cases he
  exact ⟨R, rfl⟩

theorem pchkBody_write {a : RegField} {S : RegFiles} {e : Effect} (h : pchkBody a S = .ok e) : e.write = .none := by
  simp only [pchkBody, bind_eq_ok] at h
  obtain ⟨P, -, he⟩ := h
  cases he
  rfl

theorem wellFormed_of_outcome_ok {i : Instr} {S : RegFiles} {e : Effect} (h : outcome i S = .ok e) :
    i.wellFormed = true := by
  by_contra hi
  rw [outcome_of_not_wellFormed (Bool.eq_false_iff.2 hi)] at h
  cases h

/-- A command that completes without error writes its destination or nothing. -/
theorem mayWrite_of_outcome_ok {i : Instr} {S : RegFiles} {e : Effect} (h : outcome i S = .ok e) :
    MayWrite i e.write := by
  have hi := wellFormed_of_outcome_ok h
  have field {d : RegField} {m : Modulus} (hf : IsFieldCommand i d m) : ∃ v, e.write = .field d v :=
    (hf.errorOrReduced hi S).2.write h
  cases i with
  | nop => cases h; rfl
  | fadd d a b m => exact field (.inl ⟨a, b, .inl rfl⟩)
  | fsub d a b m => exact field (.inl ⟨a, b, .inr (.inl rfl)⟩)
  | fmul d a b m => exact field (.inl ⟨a, b, .inr (.inr rfl)⟩)
  | finv d a m => exact field (.inr ⟨a, .inl rfl⟩)
  | fred d a m => exact field (.inr ⟨a, .inr rfl⟩)
  | padd d a b => exact paddBody_write ((outcome_padd hi).symm.trans h)
  | pdbl d a => exact paddBody_write (pdblBody_eq.symm.trans ((outcome_pdbl hi).symm.trans h))
  | pmul d a b => exact pmulBody_write ((outcome_pmul hi).symm.trans h)
  | pchk a => exact pchkBody_write ((outcome_pchk hi).symm.trans h)

theorem MayWrite.isDestinationWord_field {i : Instr} {d : RegField} {v off : Nat} (h : MayWrite i (.field d v))
    (hoff : fieldOffset d 0 ≤ off ∧ off < fieldOffset d 8) : isDestinationWord i off := by
  cases i with
  | nop | pchk => cases h
  | padd | pdbl | pmul =>
    obtain ⟨R, hR⟩ := h
    cases hR
  | fadd | fsub | fmul | finv | fred =>
    obtain ⟨v', hv⟩ := h
    cases hv
    exact hoff

theorem MayWrite.isDestinationWord_point {i : Instr} {d : RegField} {R : Point} {off : Nat}
    (h : MayWrite i (.point d R)) (hoff : pointOffset d 0 ≤ off ∧ off < pointOffset d 0x44) :
    isDestinationWord i off := by
  cases i with
  | nop | pchk => cases h
  | fadd | fsub | fmul | finv | fred =>
    obtain ⟨v, hv⟩ := h
    cases hv
  | padd | pdbl | pmul =>
    obtain ⟨R', hR⟩ := h
    cases hR
    exact hoff

/-- Above the point registers nothing is listed (R32). -/
theorem readWord_of_le (s : State) {off : Nat} (h : 0x400 ≤ off) : readWord s off = 0#32 := by
  rw [readWord, targetOf_ge (by omega), if_neg (by omega), if_neg (by omega), if_neg (by omega)]

/-- What the host reads away from STATUS comes from CTRL.IE or from the register at that offset. -/
theorem readWord_congr {s t : State} {off : Nat} (h4 : off % 4 = 0) (hstatus : off ≠ 0x00C) (hie : t.ie = s.ie)
    (hF : ∀ i, fieldOffset i 0 ≤ off ∧ off < fieldOffset i 8 → t.regs.getF i = s.regs.getF i)
    (hP : ∀ i, pointOffset i 0 ≤ off ∧ off < pointOffset i 0x44 → t.regs.getP i = s.regs.getP i) :
    readWord t off = readWord s off := by
  by_cases hge : 0x400 ≤ off
  · rw [readWord_of_le t hge, readWord_of_le s hge]
  unfold fieldOffset at hF
  unfold pointOffset at hP
  rcases offset_cases h4 (by omega) with rfl | rfl | rfl | rfl | rfl | hreg | hres
  · rfl
  · rfl
  · rw [readWord_ctrl, readWord_ctrl, State.ctrlWord, State.ctrlWord, hie]
  · exact absurd rfl hstatus
  · rfl
  · unfold readWord
    rcases targetOf_register hreg with ⟨i, j, -, hj, ht, hoff⟩ |
      ⟨i, j, -, hj, ⟨ht, hoff⟩ | ⟨ht, hoff⟩⟩ | ⟨i, -, ht, hoff⟩ <;> simp only [ht]
    · rw [hF i (by omega)]
    · rw [hP i (by omega)]
    · rw [hP i (by omega)]
    · rw [hP i (by omega)]
  · rw [readWord_reserved t hres, readWord_reserved s hres]

/-- A write that a command may make reaches no word outside the command's destination (R75). -/
theorem MayWrite.readWord_completeOk {i : Instr} {e : Effect} (h : MayWrite i e.write) (s : State) {off : Nat}
    (h4 : off % 4 = 0) (hstatus : off ≠ 0x00C) (hdest : ¬ isDestinationWord i off) :
    readWord (s.completeOk e) off = readWord s off := by
  obtain ⟨w, z⟩ := e
  cases w with
  | none => exact readWord_congr h4 hstatus rfl (fun _ _ => rfl) (fun _ _ => rfl)
  | field d v =>
    refine readWord_congr h4 hstatus rfl (fun j hj => s.regs.getF_setF_ne d j _ ?_) (fun _ _ => rfl)
    rintro rfl
    exact hdest (h.isDestinationWord_field hj)
  | point d R =>
    refine readWord_congr h4 hstatus rfl (fun _ _ => rfl) (fun j hj => s.regs.getP_setP_ne d j _ ?_)
    rintro rfl
    exact hdest (h.isDestinationWord_point hj)

theorem readWord_complete (s : State) {i : Instr} (S : RegFiles) {off : Nat} (h4 : off % 4 = 0)
    (hstatus : off ≠ 0x00C) (hdest : ¬ isDestinationWord i off) :
    readWord (s.complete (outcome i S)) off = readWord s off := by
  cases ho : outcome i S with
  | error c => exact readWord_congr h4 hstatus rfl (fun _ _ => rfl) (fun _ _ => rfl)
  | ok e => exact (mayWrite_of_outcome_ok ho).readWord_completeOk s h4 hstatus hdest

/-- A command without a destination changes no register (R67, R78). -/
theorem complete_regs_of_no_destination (s : State) {i : Instr} (S : RegFiles)
    (h : ∀ w, MayWrite i w → w = .none) : (s.complete (outcome i S)).regs = s.regs := by
  cases ho : outcome i S with
  | error c => rfl
  | ok e =>
    rw [State.complete_ok, State.completeOk_regs, h e.write (mayWrite_of_outcome_ok ho)]
    rfl

/-! ### NOP -/

theorem exec_nop (s : State) : exec .nop s = .next (s.completeOk nopEffect) := rfl

theorem eq_nop_of_opField {i : Instr} (h : opField (encode i) = 0#8) : i = .nop := by
  cases i with
  | nop => rfl
  | fadd | fsub | fmul | finv | fred | padd | pdbl | pmul | pchk => simp [encode] at h

/-- 0 is the only word of its opcode that is legal (R78). -/
theorem not_legal_of_opField_zero {w : Word} (hop : opField w = 0#8) (hw : w ≠ 0#32) : legal w = false := by
  by_contra h
  rw [Bool.not_eq_false, legal_iff_encode] at h
  obtain ⟨i, rfl, -⟩ := h
  rw [eq_nop_of_opField hop] at hw
  exact hw (by decide)

end Sys2Proof.Machine

namespace Sys2Proof.Proofs.CommandLife
open Sys2Proof Sys2Proof.Machine

/-- Settles O23: the step is `accept`, and the outcome of a word on a snapshot is `wordOutcome`. -/
theorem acceptanceTakesASnapshot : Obligations.AcceptanceTakesASnapshot := by
  rintro s w ⟨rest, ht⟩ hb
  obtain ⟨h1, hmax⟩ := latency_range s.draws w s.regs
  have hstep := step_of_hostWrite (by decide) (by decide) ht
  rw [writeWord_cmd_of_idle w hb] at hstep
  refine ⟨_, _, hstep, h1, hmax, by rw [ht]; rfl, Bool.and_false s.ie, wordOutcome w s.regs, ?_⟩
  rintro u ⟨l, hl, hsnap⟩
  rw [runWord_eq, State.operands_of_latch hl, hsnap]

/-- Settles O30: every step of a command in flight completes it or uses up a pending move or a cycle. -/
theorem everyAcceptedCommandCompletes : Obligations.EveryAcceptedCommandCompletes :=
  fun _ hs hb hreset hwin hsrst => run_inFlight (hs.inFlight hb) ⟨hreset, hwin, hsrst⟩

/-- Settles O39: a completion changes STATUS, the latch and the registers, and of these only the destination. -/
theorem commandFrame : Obligations.CommandFrame := by
  intro s t i ht
  rw [exec_eq] at ht
  obtain rfl := Host.Outcome.next.inj ht
  obtain ⟨hidle, hdone, hlatch⟩ := s.complete_idle (outcome i s.operands)
  obtain ⟨hie, hovr, hturns, hresponse, hdraws⟩ := s.complete_keeps (outcome i s.operands)
  refine ⟨fun off => readWord_complete s s.operands, ?_, ?_, hie, hovr, hidle, hdone, hlatch, hturns, hresponse,
    hdraws⟩
  · rintro a rfl
    exact complete_regs_of_no_destination s s.operands fun _ hw => hw
  · rintro rfl
    exact complete_regs_of_no_destination s s.operands fun _ hw => hw

/-- Settles O40: NOP's effect is empty, and acceptance has cleared every bit of STATUS that the completion leaves
but Z and OVR. -/
theorem nopCompletes : Obligations.NopCompletes := by
  refine ⟨by decide, fun w => not_legal_of_opField_zero, fun s => ⟨_, exec_nop s, rfl, Bool.and_true s.ie⟩, ?_⟩
  intro s hb
  refine ⟨_, _, writeWord_cmd_of_idle 0#32 hb, rfl, rfl, rfl, exec_nop _, rfl, fun hz hovr => ?_⟩
  apply BitVec.eq_of_toNat_eq
  rw [readWord_status, State.toNat_statusWord]
  simp [nopEffect, hz, hovr]

/-- Settles O24: the completing step is the outcome of the word in the latch. -/
theorem stepRunsTheDecodedCommand : Obligations.StepRunsTheDecodedCommand :=
  fun _ l _ he hb hl hr hi => step_of_decode ⟨he, hb, l, hl, hr⟩ hl hi

/-- Settles O25: a placed word is in flight with its cycles run out, on a snapshot of the registers. -/
theorem placedWordRunsNext : Obligations.PlacedWordRunsNext := by
  intro s w i hi
  rw [withFetchWord_eq]
  have now : (placeCommand s (BitVec.ofNat 32 w)).completesNow := ⟨.inr ⟨_, rfl⟩, rfl, _, rfl, le_rfl⟩
  exact ⟨step_of_decode now rfl (decode_of_decodeTableWord hi), rfl⟩

end Sys2Proof.Proofs.CommandLife
end

section
/-! PROOFS. Errors, the interrupt line, and the race of a host access with a completion: which error is reported, what
it leaves, and how the host returns from it (R79 to R87). -/

namespace Sys2Proof.Machine

/-! ### Writes of CTRL and CMD -/

theorem writeWord_ctrl_of_srst (s : State) {v : Word} (h : v.getLsbD 1 = true) :
    writeWord s 0x008 v = s.resetBlock := if_pos h

theorem writeWord_ctrl_of_not_srst (s : State) {v : Word} (h : v.getLsbD 1 = false) :
    writeWord s 0x008 v = { s with ie := v.getLsbD 0 } := if_neg (Bool.eq_false_iff.1 h)

theorem writeWord_cmd_of_busy {s : State} (w : Word) (hb : s.busy = true) : writeWord s 0x010 w = s.dropWrite :=
  if_pos hb

/-! ### irq -/

theorem State.irq_of_not_done {s : State} (h : s.done = false) : s.irq = false := by
  rw [State.irq, h, Bool.and_false]

/-- A completion, with an error or without, makes irq what IE is (R84). -/
theorem State.irq_complete (s : State) (r : Result) : (s.complete r).irq = s.ie := by
  obtain ⟨-, hdone, -⟩ := s.complete_idle r
  obtain ⟨hie, -⟩ := s.complete_keeps r
  rw [State.irq, hie, hdone, Bool.and_true]

/-! ### Every step goes on -/

theorem engineTurn_next (s : State) : ∃ t, engineTurn s = .next t := by
  rcases engineTurn_cases s with ⟨l, -, -, -, e⟩ | ⟨l, -, -, -, e⟩ | ⟨-, e⟩ <;> exact ⟨_, e⟩

theorem busAccess_next {a : Access} (s : State) (hoff : a.off < 0x1000) : ∃ t, busAccess a s = .next t := by
  rcases busAccess_cases a s hoff with ⟨-, e⟩ | ⟨-, -, e⟩ | ⟨v, -, -, e⟩ <;> exact ⟨_, e⟩

theorem busAccess_outside {a : Access} (s : State) (hoff : 0x1000 ≤ a.off) :
    busAccess a s = .fault .outsideWindow := if_pos hoff

theorem step_next {s : State} (h : ∀ a rest, s.turns = .access a :: rest → a.off < 0x1000) :
    ∃ t, step s = .next t := by
  match ht : s.turns with
  | [] => exact step_of_engineNext (.inl ht) ▸ engineTurn_next _
  | .engine :: rest => exact step_of_engineNext (.inr ⟨rest, ht⟩) ▸ engineTurn_next _
  | .access a :: rest => exact step_of_access ht ▸ busAccess_next _ (h a rest ht)
  | .hardReset :: rest => exact ⟨_, by rw [step, ht]⟩

/-! ### Two moves -/

theorem run_two {s t u : State} (h : step s = .next t) (h' : step t = .next u) :
    Host.Core.run core 2 s = .next u :=
  (run_succ (M := core) h 1).trans (run_succ (M := core) h' 0)

/-- With a command's cycles run out, an engine turn followed by a host write completes it and then writes (R85). -/
theorem run_complete_write {s : State} {l : Latch} {off : Nat} {v : Word} {rest : List Turn} (hb : s.busy = true)
    (hl : s.latch = some l) (hr : l.remaining ≤ 1) (hoff : off < 0x1000) (h4 : off % 4 = 0)
    (ht : s.turns = .engine :: hostWrite off v :: rest) :
    Host.Core.run core 2 s = .next
      { writeWord (s.complete (wordOutcome l.word l.snapshot)) off v with turns := rest, response := .accepted } := by
  have now : s.completesNow := ⟨.inr ⟨_, ht⟩, hb, l, hl, hr⟩
  have hfirst := step_of_completesNow now hl
  rw [State.complete_turns, ht] at hfirst
  refine run_two hfirst ((step_of_hostWrite hoff h4 rfl).trans ?_)
  rw [writeWord_turns]

/-- A CMD write dropped before the completion leaves the command to complete (R85, R97). -/
theorem run_drop_complete {s : State} {l : Latch} {w : Word} {rest : List Turn} (hb : s.busy = true)
    (hl : s.latch = some l) (hr : l.remaining ≤ 1) (ht : s.turns = hostWrite 0x010 w :: .engine :: rest) :
    Host.Core.run core 2 s = .next (State.complete
      { s.dropWrite with turns := rest, response := .accepted } (wordOutcome l.word l.snapshot)) := by
  have hfirst := step_of_hostWrite (by decide) (by decide) ht
  rw [writeWord_cmd_of_busy w hb] at hfirst
  exact run_two hfirst (step_of_completesNow ⟨.inr ⟨rest, rfl⟩, hb, l, hl, hr⟩ hl)

/-- After a soft reset the engine finds no command in flight (R85, R95). -/
theorem run_srst_engine {s : State} {v : Word} {rest : List Turn} (hv : v.getLsbD 1 = true)
    (ht : s.turns = hostWrite 0x008 v :: .engine :: rest) :
    Host.Core.run core 2 s = .next { s.resetBlock with turns := rest, response := .accepted } := by
  have hfirst := step_of_hostWrite (by decide) (by decide) ht
  rw [writeWord_ctrl_of_srst s hv] at hfirst
  exact run_two hfirst ((step_of_engineNext (.inr ⟨rest, rfl⟩)).trans (engineTurn_of_idle rfl))

/-! ### Completion with an error -/

theorem ErrCode.code_cases (c : ErrCode) : c.code = 1#4 ∨ c.code = 2#4 ∨ c.code = 3#4 ∨ c.code = 4#4 := by
  cases c <;> decide

/-- ERR rises only by an error of the command (R81). -/
theorem complete_eq_completeErr {s : State} {r : Result} (hs : s.err = false) (h : (s.complete r).err = true) :
    ∃ c, s.complete r = s.completeErr c := by
  cases r with
  | ok e => exact absurd (hs.symm.trans h) Bool.false_ne_true
  | error c => exact ⟨c, rfl⟩

theorem completeErr_errored (s : State) (c : ErrCode) : Errored s (s.completeErr c) c.code := rfl

/-! ### The error that is reported -/

theorem pointOf_of_off_curve {r : PointReg} (h : r.inf = false) (hx : r.x.toNat < Config.curveP)
    (hy : r.y.toNat < Config.curveP) (hc : onCurve r.x.toNat r.y.toNat = false) : pointOf r = .error .curve :=
  (pointOf_of_lt h hx hy).trans (if_neg (Bool.eq_false_iff.1 hc))

/-- The error of the first point operand is the command's, whatever a second operand holds (R80). -/
theorem outcome_of_first_point_error {i : Instr} {d a b : RegField} {S : RegFiles} {c : ErrCode}
    (hi : i.wellFormed = true) (h : i = .padd d a b ∨ i = .pdbl d a ∨ i = .pmul d b a ∨ i = .pchk a)
    (ha : pointOperand S a = .error c) : outcome i S = .error c := by
  rcases h with rfl | rfl | rfl | rfl
  · exact (outcome_padd hi).trans (paddBody_of_error_left ha)
  · exact (outcome_pdbl hi).trans (pdblBody_eq.trans (paddBody_of_error_left ha))
  · exact (outcome_pmul hi).trans (pmulBody_of_error ha)
  · exact (outcome_pchk hi).trans (pchkBody_of_error ha)

/-- A command that reports the error of a point operand reports RANGE before CURVE (R61, R80). -/
theorem exec_errored_of_point {s : State} {i : Instr} {a : RegField} {r : PointReg} (hr : s.operands.getP a = r)
    (hinf : r.inf = false)
    (h : ∀ c, pointOperand s.operands a = .error c → outcome i s.operands = .error c) :
    (Config.curveP ≤ r.x.toNat ∨ Config.curveP ≤ r.y.toNat → ∃ t, exec i s = .next t ∧ Errored s t 2#4) ∧
      (r.x.toNat < Config.curveP → r.y.toNat < Config.curveP → onCurve r.x.toNat r.y.toNat = false →
        ∃ t, exec i s = .next t ∧ Errored s t 3#4) := by
  subst hr
  exact ⟨fun hc => exec_errored (h .range (pointOf_of_le hinf hc)),
    fun hx hy hc => exec_errored (h .curve (pointOf_of_off_curve hinf hx hy hc))⟩

end Sys2Proof.Machine

namespace Sys2Proof.Proofs.Exceptions
open Sys2Proof Sys2Proof.Machine

/-- Settles O12: the word 6 has the W1C bits of DONE and ERR and not that of OVR, and an acceptance clears the
same bits by itself. -/
theorem errorReturnClearsStatus : Obligations.ErrorReturnClearsStatus := by
  intro s w hb
  have hclear : s.clearStatus 6#32 = { s with done := false, err := false, errcode := 0#4 } := by
    simp [State.clearStatus]
  rw [writeWord_status, writeWord_cmd_of_idle w hb, writeWord_cmd_of_idle (s := s.clearStatus 6#32) w hb]
  exact ⟨hclear, rfl, rfl, rfl, rfl, rfl⟩

/-- Settles O14: each event sets IE or DONE, and irq is their conjunction. -/
theorem irqFollowsEnableAndDone : Obligations.IrqFollowsEnableAndDone := by
  intro s
  refine ⟨Bool.and_eq_true_iff, fun hd => ?_, ⟨?_, ?_⟩, fun v hv => ?_, fun w hb => ?_, rfl, fun now hie => ?_⟩
  · rw [writeWord_ctrl_of_not_srst s (by decide)]
    exact hd
  · rw [writeWord_ctrl_of_not_srst s (by decide)]
    rfl
  · rw [writeWord_ctrl_of_not_srst s (by decide)]
  · rw [writeWord_status]
    exact State.irq_of_not_done (by rw [State.clearStatus_done, hv, Bool.not_true, Bool.and_false])
  · rw [writeWord_cmd_of_idle w hb]
    exact State.irq_of_not_done rfl
  · have ⟨_, _, l, hl, _⟩ := now
    exact ⟨_, step_of_completesNow now hl, (State.irq_complete _ _).trans hie⟩

/-- Settles O29: the two moves run one after the other, in the order of the list. -/
theorem completionRacesTakeEitherOrder : Obligations.CompletionRacesTakeEitherOrder := by
  intro s l rest hb hl hr
  obtain ⟨hidle, -, -⟩ := s.complete_idle (wordOutcome l.word l.snapshot)
  obtain ⟨-, hovr, -, -, hdraws⟩ := s.complete_keeps (wordOutcome l.word l.snapshot)
  refine ⟨fun w => ⟨fun ht => ?_, fun ht => ?_⟩, ?_⟩
  · refine ⟨_, run_complete_write hb hl hr (by decide) (by decide) ht, ?_⟩
    rw [writeWord_cmd_of_idle w hidle]
    exact ⟨rfl, rfl, hovr, by rw [State.accept_latch, hdraws]; rfl, rfl⟩
  · refine ⟨_, run_drop_complete hb hl hr ht, ?_⟩
    generalize wordOutcome l.word l.snapshot = r
    cases r <;> exact ⟨rfl, rfl, rfl, rfl, rfl, rfl⟩
  · rintro v hv (ht | ht)
    · rw [run_complete_write hb hl hr (by decide) (by decide) ht, writeWord_ctrl_of_srst _ hv,
        State.resetBlock, hdraws]
    · exact run_srst_engine hv ht

/-- Settles O33: engine turns, accesses within the window and resets each give a next state. -/
theorem stepNeverStops : Obligations.StepNeverStops :=
  fun _ => ⟨step_next, fun _ _ ht hoff => (step_of_access ht).trans (busAccess_outside _ hoff)⟩

/-- Settles O38: with ERR = 0 before, the completion is `completeErr`, which leaves the block idle. -/
theorem errorsWriteNothing : Obligations.ErrorsWriteNothing := by
  intro s t i hs ht herr
  rw [exec_eq] at ht
  obtain rfl := Host.Outcome.next.inj ht
  obtain ⟨c, hc⟩ := complete_eq_completeErr hs herr
  rw [hc]
  refine ⟨⟨c.code, c.code_cases, completeErr_errored s c⟩, fun w => ?_⟩
  rw [writeWord_cmd_of_idle w rfl]
  rfl

/-- Settles O56: a word that is not legal has the outcome ILLEGAL on any registers; a point operand's error and a
field operand's RANGE are outcomes before anything else is computed. -/
theorem errorPriority : Obligations.ErrorPriority := by
  refine ⟨fun s w hw => ⟨_, runWord_eq w s, ?_⟩, ?_, ?_, fun s d a m hi => ⟨fun h => ?_, fun h => ?_⟩⟩
  · rw [wordOutcome_of_not_legal hw]
    exact complete_illegal_errored s
  · intro s i d a b r hi hcmd hr hinf
    exact exec_errored_of_point hr hinf fun c => outcome_of_first_point_error hi hcmd
  · intro s d a b P r hi ha hr hinf
    exact exec_errored_of_point hr hinf fun c hb => (outcome_padd hi).trans (paddBody_of_error_right ha hb)
  · exact exec_errored ((outcome_finv s.operands hi).trans (finvBody_of_le h))
  · exact exec_errored ((outcome_finv s.operands hi).trans (finvBody_of_zero h))

end Sys2Proof.Proofs.Exceptions
end

section
/-! PROOFS. The two resets, and host writes to the busy block (R94, R95, R97). -/

namespace Sys2Proof.Machine

theorem step_of_hardReset {s : State} {rest : List Turn} (h : s.turns = .hardReset :: rest) :
    step s = .next { s.resetBlock with turns := rest } := by
  rw [step, h]
  rfl

theorem step_of_srst {s : State} {v : Word} (hw : s.hostWrites 0x008 v) (hv : v.getLsbD 1 = true) :
    step s = .next { s.resetBlock with turns := s.turns.tail, response := .accepted } := by
  obtain ⟨rest, ht⟩ := hw
  rw [step_of_hostWrite (by decide) (by decide) ht, writeWord_ctrl_of_srst s hv, ht]
  rfl

/-- CTRL.SRST reads 0 in every state (R21). -/
theorem getLsbD_one_readWord_ctrl (s : State) : (readWord s 0x008).getLsbD 1 = false := by
  rw [readWord_ctrl, s.ctrlWord_eq]
  cases s.ie <;> rfl

theorem readWord_ctrl_of_disabled {s : State} (h : s.ie = false) : readWord s 0x008 = 0#32 := by
  rw [readWord_ctrl, s.ctrlWord_eq, h]
  rfl

/-- STATUS reads 0 after a reset, whichever moves are to come (R94). -/
theorem readWord_status_resetBlock (s : State) (ts : List Turn) :
    readWord { s.resetBlock with turns := ts } 0x00C = 0#32 :=
  BitVec.eq_of_toNat_eq (State.toNat_statusWord { s.resetBlock with turns := ts })

theorem writeRegs_busy {s : State} (r : RegFiles) (hb : s.busy = true) : writeRegs s r = s.dropWrite :=
  if_pos hb

/-- A write of a register word or an INF word is dropped while the block is busy (R97). -/
theorem writeWord_register_of_busy {s : State} {off : Nat} (v : Word) (h : isRegisterWord off)
    (hb : s.busy = true) : writeWord s off v = s.dropWrite := by
  rcases targetOf_register h with ⟨i, j, -, -, ht, -⟩ | ⟨i, j, -, -, ⟨ht, -⟩ | ⟨ht, -⟩⟩ | ⟨i, -, ht, -⟩ <;>
    rw [writeWord, ht] <;> exact writeRegs_busy _ hb

theorem ovr_of_writeCtrl_ovr {s : State} {v : Word} (h : (writeCtrl s v).ovr = true) : s.ovr = true := by
  unfold writeCtrl at h
  split at h
  · simp at h
  · exact h

theorem State.ovr_of_clearStatus_ovr {s : State} {v : Word} (h : (s.clearStatus v).ovr = true) : s.ovr = true :=
  (Bool.and_eq_true_iff.1 h).1

end Sys2Proof.Machine

namespace Sys2Proof.Proofs.ResetAndHazards
open Sys2Proof Sys2Proof.Machine

/-- Settles O20: the target of a write decides, and O36 says which events lower OVR. -/
theorem writesWhileBusy : Obligations.WritesWhileBusy := by
  intro s off v hb
  refine ⟨?_, ?_, ?_, writeWord_ctrl_of_not_srst s, writeWord_ctrl_of_srst s, writeWord_status s v, ?_⟩
  · rintro (h | rfl)
    · exact writeWord_register_of_busy v h hb
    · exact writeWord_cmd_of_busy v hb
  · rintro (rfl | rfl | h)
    · exact writeWord_id s v
    · exact writeWord_param s v
    · exact writeWord_reserved s v h
  · rintro (rfl | rfl)
    · exact ovr_of_writeCtrl_ovr
    · exact State.ovr_of_clearStatus_ovr
  · intro u t h hu
    cases ht : t.ovr with
    | true => exact .inl rfl
    | false => exact .inr ((StepEvents.ovrRisesAndFallsOnlyAtTheseEvents u t h).2 hu ht)

/-- Settles O8: the step is `resetBlock`, and ID and PARAM are constants. -/
theorem hardwareResetState : Obligations.HardwareResetState := by
  intro s rest ht
  refine ⟨_, step_of_hardReset ht, fun i _ => RegFiles.getF_reset i, fun i _ => RegFiles.getP_reset i, ?_⟩
  exact ⟨rfl, rfl, rfl, rfl, rfl, rfl, rfl, rfl, rfl, rfl, rfl, readWord_ctrl_of_disabled rfl,
    readWord_status_resetBlock s rest⟩

/-- Settles O9: the step is `resetBlock` with the move used up and answered. -/
theorem softResetState : Obligations.SoftResetState := by
  intro s v hw hv
  have hstep := step_of_srst hw hv
  refine ⟨hstep, fun t ht => ?_⟩
  obtain rfl := Host.Outcome.next.inj (hstep.symm.trans ht)
  exact ⟨rfl, rfl, rfl, rfl, getLsbD_one_readWord_ctrl _⟩

/-- Settles O32: `State.reset` is what a reset of it leaves, and every reset block meets the invariant. -/
theorem resetMeetsInvariant : Obligations.ResetMeetsInvariant := State.reset.resetBlock_inv

end Sys2Proof.Proofs.ResetAndHazards
end
